-- ==== Sys2Proof/Word.lean ====
section
/-! DEFINITION. The machine's data types: words, bytes, command words (spec 00_scope.md R6, R7). -/

namespace Sys2Proof

/-- A word: "32-bit unsigned integer, modular (mod 2^32) arithmetic" (R6, R7). -/
abbrev Word := BitVec 32

/-- A byte: 8 bits, unsigned (R6, R7). -/
abbrev Byte := BitVec 8

/-- A command word: `op[15:8]`, `arg[7:0]` (30_encoding.md R60). -/
abbrev CmdWord := BitVec 16

/-- A message block: exactly 64 bytes (R6, R9). -/
abbrev Block := Vector Byte 64

end Sys2Proof
end

