-- ==== Sys2Proof/Config.lean ====
section
/-! DEFINITION. What an implementation fixes: the open parameters of 00_scope.md R6, and the values of the C entry points
that 44_host_codec.md R201 leaves open. -/

namespace Sys2Proof

/-- `LIMIT`, the longest hashable byte sequence in bytes: 2^29 − 1 (R6, R110). -/
abbrev LIMIT : Nat := 2 ^ 29 - 1

/-- The two capacities the spec leaves open (R6, decision D7). The bounds of R6, `KEY_MAX ≤ LIMIT` and
`64 + MSG_MAX ≤ LIMIT`, are the bounds of the two types: a value outside them is not an instance of this
hardware (93_implementation_defined.md U20) and cannot be written. -/
structure Params where
  /-- `KEY_MAX`, capacity of `KEYBUF` in bytes. -/
  keyMax : Fin (LIMIT + 1)
  /-- `MSG_MAX`, capacity of `MSGBUF` in bytes. -/
  msgMax : Fin (LIMIT - 64 + 1)
  deriving DecidableEq, Repr

/-- The reference values of 95_test_vectors.md, `KEY_MAX` = `MSG_MAX` = 256.
DESIGN CHOICE, unsafe, log 3: the spec leaves both open; only `State.reset` uses these values. -/
def Params.reference : Params := { keyMax := 256, msgMax := 256 }

/-- `PARTIAL_GROUP`: which side of a trailing partial group of `bytesToWords` the zero bytes go (R6, R90;
log 11). The engine never exercises it. -/
inductive PartialGroup where
  /-- `pad_right`: the missing low-order bytes are 0x00. -/
  | padRight
  /-- `pad_left`: the missing high-order bytes are 0x00. -/
  | padLeft
  deriving DecidableEq, Repr

/-- An input of a C entry point, a pointer and a length (R201). -/
inductive CInput where
  /-- A null pointer, with the length that came with it. -/
  | null (len : Nat)
  /-- A pointer to these bytes, with their number as the length. -/
  | bytes (b : List Byte)
  deriving DecidableEq, Repr

/-- A call of a C entry point of a hash or MAC function; the flag says that the output buffer is null (R201; log 16). -/
inductive CCall where
  | sha256 (msg : CInput) (nullOutput : Bool)
  | hmacSha256 (key msg : CInput) (nullOutput : Bool)
  deriving DecidableEq, Repr

/-- Free value: the status of a call with a null input is the negative integer `−1 − cNullDepth c`, any value below 0
(R201, 93_implementation_defined.md U18; log 16). -/
opaque cNullDepth : CCall → Nat

/-- Free value: whether a null pointer with length 0 is accepted as the empty sequence (R201, U18; log 16). -/
opaque cNullEmptyAccepted : CCall → Bool

/-- Free value: the status of a call of which R201 says nothing, one with a null output buffer or with an input that has
no result (U18; log 16). -/
opaque cOpenStatus : CCall → Int

end Sys2Proof
end

