-- ==== Sys2Proof/Syntax.lean ====
section
/-! DEFINITION. The fourteen commands (spec 30_encoding.md R64, opcode_table.json). -/

namespace Sys2Proof

/-- One constructor per row of spec/opcode_table.json. A data operand is a byte; an index or an address is the
unsigned integer `cmd[7:0]` (R61), whose range 0..255 `Instr.wellFormed` checks (log 14). -/
inductive Instr where
  /-- `NOP` (R160). -/
  | nop
  /-- `CLR` (R161). -/
  | clr
  /-- `KPUSH b` (R162). -/
  | kpush (b : Byte)
  /-- `MPUSH b` (R163). -/
  | mpush (b : Byte)
  /-- `KCLR` (R164). -/
  | kclr
  /-- `MCLR` (R165). -/
  | mclr
  /-- `SHA256` (R166). -/
  | sha256
  /-- `HMAC` (R167). -/
  | hmac
  /-- `WLOAD` (R168). -/
  | wload
  /-- `PAD` (R169). -/
  | pad
  /-- `COMPRESS` (R170). -/
  | compress
  /-- `FINALIZE` (R171). -/
  | finalize
  /-- `RDD i` (R172). -/
  | rdd (i : Nat)
  /-- `RDS a` (R173). -/
  | rds (a : Nat)
  deriving DecidableEq, Repr

end Sys2Proof
end

