-- ==== Sys2Proof/WellFormed.lean ====
section
/-! DEFINITION. Which instruction terms a command word can stand for (spec 30_encoding.md R60, R61). -/

namespace Sys2Proof

/-- The operand range 0..255 of `arg` (R61): every index and address an 8-bit field can hold. Byte operands are in
range by their type. -/
def Instr.wellFormed : Instr → Bool
  | .nop => true
  | .clr => true
  | .kpush _ => true
  | .mpush _ => true
  | .kclr => true
  | .mclr => true
  | .sha256 => true
  | .hmac => true
  | .wload => true
  | .pad => true
  | .compress => true
  | .finalize => true
  | .rdd i => decide (i < 256)
  | .rds a => decide (a < 256)

end Sys2Proof
end

