-- ==== Sys2Proof/Decode.lean ====
section
/-! DEFINITION. Decoding and encoding of command words (spec 30_encoding.md R60 to R68). -/

namespace Sys2Proof

/-- Why a word is reserved (R65, R66): either reason raises `E_ILLEGAL` and nothing else. -/
inductive DecodeError where
  /-- `op` is none of the fourteen assigned opcodes. -/
  | unassignedOpcode
  /-- The command takes no argument and `arg` ≠ 0x00. -/
  | argumentNotZero
  deriving DecidableEq, Repr

/-- A row of the opcode map (R64): a word `c` selects the row when `c & mask = pattern`. -/
structure OpcodeRow where
  mnemonic : String
  pattern : CmdWord
  mask : CmdWord
  deriving DecidableEq, Repr

/-- The row of the opcode map that a command belongs to (R64). -/
def Instr.row : Instr → OpcodeRow
  | .nop => ⟨"NOP", 0x0000, 0xFFFF⟩
  | .clr => ⟨"CLR", 0x0100, 0xFFFF⟩
  | .kpush _ => ⟨"KPUSH", 0x0200, 0xFF00⟩
  | .mpush _ => ⟨"MPUSH", 0x0300, 0xFF00⟩
  | .kclr => ⟨"KCLR", 0x0400, 0xFFFF⟩
  | .mclr => ⟨"MCLR", 0x0500, 0xFFFF⟩
  | .sha256 => ⟨"SHA256", 0x1000, 0xFFFF⟩
  | .hmac => ⟨"HMAC", 0x1100, 0xFFFF⟩
  | .wload => ⟨"WLOAD", 0x2000, 0xFFFF⟩
  | .pad => ⟨"PAD", 0x2100, 0xFFFF⟩
  | .compress => ⟨"COMPRESS", 0x2200, 0xFFFF⟩
  | .finalize => ⟨"FINALIZE", 0x2300, 0xFFFF⟩
  | .rdd _ => ⟨"RDD", 0x3000, 0xFF00⟩
  | .rds _ => ⟨"RDS", 0x3100, 0xFF00⟩

/-- The opcode map of R64, all fourteen rows in the table's order. -/
def opcodeTable : List OpcodeRow :=
  [Instr.nop, .clr, .kpush 0, .mpush 0, .kclr, .mclr, .sha256, .hmac, .wload, .pad, .compress, .finalize,
    .rdd 0, .rds 0].map Instr.row

/-- `op = c[15:8]` (R60). -/
def CmdWord.op (c : CmdWord) : Byte := c.extractLsb' 8 8

/-- `arg = c[7:0]` (R60). -/
def CmdWord.arg (c : CmdWord) : Byte := c.extractLsb' 0 8

/-- A command without an argument: reserved unless `arg` = 0x00 (R65). -/
def noArgument (arg : Byte) (i : Instr) : Except DecodeError Instr :=
  if arg = 0x00 then .ok i else .error .argumentNotZero

/-- Decoding, total on all 65536 words and independent of the engine's state (R65). -/
def decode (c : CmdWord) : Except DecodeError Instr :=
  match (CmdWord.op c).toNat with
  | 0x00 => noArgument (CmdWord.arg c) .nop
  | 0x01 => noArgument (CmdWord.arg c) .clr
  | 0x02 => .ok (.kpush (CmdWord.arg c))
  | 0x03 => .ok (.mpush (CmdWord.arg c))
  | 0x04 => noArgument (CmdWord.arg c) .kclr
  | 0x05 => noArgument (CmdWord.arg c) .mclr
  | 0x10 => noArgument (CmdWord.arg c) .sha256
  | 0x11 => noArgument (CmdWord.arg c) .hmac
  | 0x20 => noArgument (CmdWord.arg c) .wload
  | 0x21 => noArgument (CmdWord.arg c) .pad
  | 0x22 => noArgument (CmdWord.arg c) .compress
  | 0x23 => noArgument (CmdWord.arg c) .finalize
  | 0x30 => .ok (.rdd (CmdWord.arg c).toNat)
  | 0x31 => .ok (.rds (CmdWord.arg c).toNat)
  | _ => .error .unassignedOpcode

/-- The word of format `C16` with the given `op` and `arg` (R60). -/
def c16 (op arg : Byte) : CmdWord := op ++ arg

/-- The command word of an instruction (R64). An index or address above 255 has no encoding: `Instr.wellFormed`
rejects it. -/
def encode : Instr → CmdWord
  | .nop => c16 0x00 0x00
  | .clr => c16 0x01 0x00
  | .kpush b => c16 0x02 b
  | .mpush b => c16 0x03 b
  | .kclr => c16 0x04 0x00
  | .mclr => c16 0x05 0x00
  | .sha256 => c16 0x10 0x00
  | .hmac => c16 0x11 0x00
  | .wload => c16 0x20 0x00
  | .pad => c16 0x21 0x00
  | .compress => c16 0x22 0x00
  | .finalize => c16 0x23 0x00
  | .rdd i => c16 0x30 (BitVec.ofNat 8 i)
  | .rds a => c16 0x31 (BitVec.ofNat 8 a)

/-- The instruction the decoder reads from a word numbered as spec/opcode_table.json numbers it. Every command is one
16-bit word (R68), so a longer bit string, or a number that does not fit 16 bits, is no command. -/
def decodeTableWord (nbits w : Nat) : Option Instr :=
  if nbits ≤ 16 ∧ w < 2 ^ 16 then
    match decode (BitVec.ofNat 16 w) with
    | .ok i => some i
    | .error _ => none
  else none

end Sys2Proof
end

