-- ==== Sys2Proof/Machine/Units.lean ====
section
/-! DEFINITION. The word units (spec 40_bytecodec_wordops.md R80 to R89). The bitwise operations of R83 are `BitVec`'s
`^^^`, `&&&` and `~~~` at 32 bits. R84 to R87 are the spec's own supply from general knowledge of FIPS 180-4: PRESUMED,
unsafe, log 10. -/

namespace Sys2Proof.Machine

/-- `ADD32(x, y) = (x + y) mod 2^32` (R80). The carry out is recorded nowhere (10_state.md R19). -/
def add32 (x y : Word) : Word := x + y

/-- `ROTR(x, n)`: rotation right by `n mod 32` (R81). -/
def rotr (x : Word) (n : Nat) : Word :=
  let r := n % 32
  if r = 0 then x else (x >>> r) ||| (x <<< (32 - r))

/-- `SHR(x, n)`: logical shift right by `n mod 32`; an amount of 32 is the identity (R82). -/
def shr (x : Word) (n : Nat) : Word := x >>> (n % 32)

/-- `CH(x, y, z)` (R84). -/
def ch (x y z : Word) : Word := (x &&& y) ^^^ (~~~x &&& z)

/-- `MAJ(x, y, z)` (R85). -/
def maj (x y z : Word) : Word := (x &&& y) ^^^ (x &&& z) ^^^ (y &&& z)

/-- `BSIG0(x)` (R86). -/
def bsig0 (x : Word) : Word := rotr x 2 ^^^ rotr x 13 ^^^ rotr x 22

/-- `BSIG1(x)` (R87). -/
def bsig1 (x : Word) : Word := rotr x 6 ^^^ rotr x 11 ^^^ rotr x 25

/-- `SSIG0(x)` (R88). -/
def ssig0 (x : Word) : Word := rotr x 7 ^^^ rotr x 18 ^^^ shr x 3

/-- `SSIG1(x)` (R89). -/
def ssig1 (x : Word) : Word := rotr x 17 ^^^ rotr x 19 ^^^ shr x 10

end Sys2Proof.Machine
end

