-- ==== Sys2Proof/Machine/ByteCodec.lean ====
section
/-! DEFINITION. Packing of bytes and words (spec 00_scope.md R7; 20_memory.md R44; 40_bytecodec_wordops.md R90 to R93). -/

namespace Sys2Proof.Machine

/-- `word(b0, b1, b2, b3)`: big-endian, `b0` the most significant byte (R7, R44). -/
def wordOf (b0 b1 b2 b3 : Byte) : Word := b0 ++ b1 ++ b2 ++ b3

/-- `be32(w) = (w[31:24], w[23:16], w[15:8], w[7:0])` (R7, R44). -/
def be32 (w : Word) : List Byte :=
  [w.extractLsb' 24 8, w.extractLsb' 16 8, w.extractLsb' 8 8, w.extractLsb' 0 8]

/-- `bytesToWords(s)` (R90). A trailing partial group has no meaning: the spec leaves the side of its zero bytes open
and asks a model to refuse it (decision D16, log 11). -/
def bytesToWords : List Byte → Option (List Word)
  | [] => some []
  | b0 :: b1 :: b2 :: b3 :: rest => (bytesToWords rest).map (wordOf b0 b1 b2 b3 :: ·)
  | _ => none

/-- The last word of a partial group of one to three bytes under either reading of `PARTIAL_GROUP` (R90). -/
def partialWord (g : PartialGroup) (s : List Byte) : Word :=
  let missing := List.replicate (4 - s.length) (0 : Byte)
  let full := match g with
    | .padRight => s ++ missing
    | .padLeft => missing ++ s
  wordOf (full.getD 0 0) (full.getD 1 0) (full.getD 2 0) (full.getD 3 0)

/-- `bytesToWords` with the parameter `PARTIAL_GROUP` given, defined on every length (R90). No rule of the engine uses
it: every call of the engine has 64 bytes (20_memory.md R47). -/
def bytesToWordsWith (g : PartialGroup) : List Byte → List Word
  | [] => []
  | b0 :: b1 :: b2 :: b3 :: rest => wordOf b0 b1 b2 b3 :: bytesToWordsWith g rest
  | s => [partialWord g s]

/-- `wordsToBytes(ws)` (R91). -/
def wordsToBytes (ws : List Word) : List Byte := ws.flatMap be32

/-- `xorBytes(s, t)`; `none` is the failure `LengthMismatch` (R92). -/
def xorBytes (s t : List Byte) : Option (List Byte) :=
  if s.length = t.length then some (List.zipWith (· ^^^ ·) s t) else none

/-- `concatBytes(s, t)` (R93). -/
def concatBytes (s t : List Byte) : List Byte := s ++ t

/-- The first 64 bytes of a sequence as a block. Every use has exactly 64 bytes (20_memory.md R43), so the filler of a
shorter sequence is never seen (log 18). -/
def toBlock (s : List Byte) : Block := Vector.ofFn fun i => s.getD i.val 0

end Sys2Proof.Machine
end

