-- ==== Sys2Proof/Machine/Stages.lean ====
section
/-! DEFINITION. The SHA-256 stages as pure functions (spec 41_sha256_stages.md R110 to R119). -/

namespace Sys2Proof.Machine

/-- `k = (55 − L) mod 64`, the number of 0x00 bytes between the mark and the length field (R110). -/
def padZeros (len : Nat) : Nat := ((55 - (len : Int)) % 64).toNat

/-- What `pad` appends to a sequence of `len` bytes: `0x80 ++ 0x00^k ++ 0x00^4 ++ be32(8·len)` (R110, R121). -/
def padTail (len : Nat) : List Byte :=
  padMark :: (List.replicate (padZeros len) 0 ++ List.replicate 4 0 ++ be32 (BitVec.ofNat 32 (8 * len)))

/-- `pad(m)`; no result beyond `LIMIT` (R110, decision D15, log 9). -/
def pad (m : List Byte) : Option (List Byte) :=
  if m.length ≤ LIMIT then some (concatBytes m (padTail m.length)) else none

/-- The first sixteen schedule words of a block (R112): big-endian groups of four bytes. -/
def blockWords (b : Block) : Vector Word 16 :=
  Vector.ofFn fun i => wordOf b[4 * i.val] b[4 * i.val + 1] b[4 * i.val + 2] b[4 * i.val + 3]

/-- The next schedule word `W[i]`, `i` the number of words so far (R113). -/
def nextWord (ws : List Word) : Word :=
  let i := ws.length
  add32 (add32 (add32 (ws.getD (i - 16) 0) (ssig0 (ws.getD (i - 15) 0))) (ws.getD (i - 7) 0))
    (ssig1 (ws.getD (i - 2) 0))

/-- The expansion: `n` more schedule words, in increasing order (R113). -/
def expand : Nat → List Word → List Word
  | 0, ws => ws
  | n + 1, ws => expand n (ws ++ [nextWord ws])

/-- `schedule(B)`, the 64 words `W[0..63]` (R112, R113). -/
def schedule (b : Block) : Vector Word 64 :=
  let ws := expand 48 (blockWords b).toList
  Vector.ofFn fun i => ws.getD i.val 0

/-- The eight working variables `a..h` (10_state.md R10). -/
structure WorkVars where
  a : Word
  b : Word
  c : Word
  d : Word
  e : Word
  f : Word
  g : Word
  h : Word
  deriving DecidableEq, Repr

/-- `V[0..7] = (a, b, c, d, e, f, g, h)` (10_state.md R10). -/
def WorkVars.toVector (v : WorkVars) : Vector Word 8 := #v[v.a, v.b, v.c, v.d, v.e, v.f, v.g, v.h]

/-- "initialize working variables a..h from HashState" (R117, R122 `U_WVINIT`). -/
def WorkVars.ofHash (s : Vector Word 8) : WorkVars := ⟨s[0], s[1], s[2], s[3], s[4], s[5], s[6], s[7]⟩

/-- `round(V, k, w)`: every right-hand side uses the values from before the round; `+` is `ADD32` throughout (R115). -/
def round (v : WorkVars) (k w : Word) : WorkVars :=
  let temp1 := v.h + bsig1 v.e + ch v.e v.f v.g + k + w
  let temp2 := bsig0 v.a + maj v.a v.b v.c
  { a := temp1 + temp2, b := v.a, c := v.b, d := v.c, e := v.d + temp1, f := v.e, g := v.f, h := v.g }

/-- The 64 rounds, `t = 0, 1, ..., 63` in order (R117). -/
def rounds (w : Vector Word 64) (v : WorkVars) : WorkVars :=
  (List.finRange 64).foldl (fun v t => round v K[t] w[t]) v

/-- "add working variables into HashState element-wise": `a` to `S[0]`, ..., `h` to `S[7]` (R117). -/
def addBack (s : Vector Word 8) (v : WorkVars) : Vector Word 8 :=
  #v[add32 s[0] v.a, add32 s[1] v.b, add32 s[2] v.c, add32 s[3] v.d,
    add32 s[4] v.e, add32 s[5] v.f, add32 s[6] v.g, add32 s[7] v.h]

/-- `compress(S, B)`, stages 2 and 3 for one block (R117). -/
def compress (s : Vector Word 8) (b : Block) : Vector Word 8 :=
  addBack s (rounds (schedule b) (WorkVars.ofHash s))

/-- `finalize(S)`, the big-endian serialisation of the hash state, 32 bytes (R118). -/
def finalize (s : Vector Word 8) : List Byte := wordsToBytes s.toList

/-- Block `j` of a padded sequence: bytes `64j .. 64j + 64` (R119, 20_memory.md R43). -/
def blockAt (p : List Byte) (j : Nat) : Block := toBlock ((p.drop (64 * j)).take 64)

/-- `S_n` of R119: the hash state after the first `n` blocks of a padded sequence, from `IV`. -/
def hashBlocks (p : List Byte) : Nat → Vector Word 8
  | 0 => IV
  | n + 1 => compress (hashBlocks p n) (blockAt p n)

/-- `sha256(m)`; no result beyond `LIMIT` (R119). -/
def sha256 (m : List Byte) : Option (List Byte) :=
  (pad m).map fun p => finalize (hashBlocks p (p.length / 64))

end Sys2Proof.Machine
end

