-- ==== Sys2Proof/Machine/Mac.lean ====
section
/-! DEFINITION. The HMAC construction as pure functions (spec 42_hmac.md R140, R142, R143). -/

namespace Sys2Proof.Machine

/-- A key of at most 64 bytes, zero-padded on the right to 64 (R140, second line). -/
def zeroPadKey (key : List Byte) : List Byte := concatBytes key (List.replicate (64 - key.length) 0)

/-- `prepareKey(key)`: hashed when strictly longer than 64 bytes; no result beyond `LIMIT` (R140, R147). -/
def prepareKey (key : List Byte) : Option (List Byte) :=
  if key.length > 64 then (sha256 key).map (concatBytes · (List.replicate 32 0)) else some (zeroPadKey key)

/-- `hmac(key, msg)`; no result outside the length limits (R143). -/
def hmac (key msg : List Byte) : Option (List Byte) :=
  (prepareKey key).bind fun k =>
  (xorBytes k ipad64).bind fun innerKey =>
  (sha256 (concatBytes innerKey msg)).bind fun inner =>
  (xorBytes k opad64).bind fun outerKey =>
  sha256 (concatBytes outerKey inner)

end Sys2Proof.Machine
end

