-- ==== Sys2Proof/Machine/State.lean ====
section
/-! DEFINITION. The state of one engine instance, its outcomes, and reset (spec 10_state.md; 70_reset_and_hazards.md
R240). -/

namespace Sys2Proof.Machine

/-- `PHASE`, the position in "Init → Padded → (Compressing)* → Finalized" (R17). -/
inductive Phase where
  | init
  | padded
  | compressing
  | finalized
  deriving DecidableEq, Repr

/-- The status codes of a response and of `ERR` (60_exceptions.md R210). -/
inductive Status where
  | ok
  | eIllegal
  | eSeq
  | eArg
  | eSize
  /-- Reserved; never raised (R217). -/
  | eLen
  deriving DecidableEq, Repr

/-- A response word, `st[15:8]`, `data[7:0]` (30_encoding.md R62). -/
structure Response where
  st : Status
  data : Byte
  deriving DecidableEq, Repr

/-- What the outside world does next (30_encoding.md R63; 70_reset_and_hazards.md R241; logs 1, 5). -/
inductive HostEvent where
  /-- The host presents a command word and waits for its response. -/
  | command (c : CmdWord)
  /-- The platform's reset event, between two commands. -/
  | reset
  /-- The host presents a command word and the platform's reset arrives while it executes. -/
  | resetDuring (c : CmdWord)
  deriving DecidableEq, Repr

/-- The six spaces that hold bytes (00_scope.md R7; 20_memory.md R40). The seventh, the status window, is a view. -/
inductive Space where
  | keybuf
  | msgbuf
  | work
  | k0
  | inner
  | digest
  deriving DecidableEq, Repr

/-- The bytes of one space: address and byte, addresses strictly rising, no entry 0x00, which is what an unlisted
address reads as (R240: every byte is 0x00 at reset; log 7). -/
abbrev Memory := List Host.Cell

/-- Why a step stops with a fault. None is an outcome of the hardware, whose errors are responses (60_exceptions.md
R234): each guards a condition the spec states and no state with `State.Inv` violates (log 8). -/
inductive Fault where
  /-- `MemRead` or `MemWrite` beyond the end of a space (20_memory.md R40); raised by the space operations of Ops.lean.
  Safe: the model stops where the spec gives no location. -/
  | noSuchAddress (sp : Space)
  /-- `U_ROUND` with `T` ≥ 64 (R14, R122 "requires T < 64"). Safe: the model stops where the spec has no `K[T]`, `W[T]`. -/
  | roundOutOfRange
  /-- `U_ADDBACK` with `T` ≠ 64 (R116, R122 "requires T = 64"). Safe: the model stops where the spec gives no effect. -/
  | roundsNotDone
  /-- `xorBytes` on different lengths in the HMAC controller (40_bytecodec_wordops.md R92). Safe: the spec says the
  operands are always 64 bytes. -/
  | lengthMismatch
  deriving DecidableEq, Repr

/-- Why a step gives no meaning. -/
inductive Refusal where
  /-- The instruction has no meaning yet; raised by `exec` alone. Safe. -/
  | notModelled (mnemonic : String)
  /-- `pad` beyond `LIMIT`, where the function has no result (41_sha256_stages.md R110; 60_exceptions.md R234); raised
  by `U_PAD` in states no run reaches. Safe (log 9). -/
  | beyondLimit
  deriving DecidableEq, Repr

/-- The state of one engine instance (10_state.md section 1) and of its interface. -/
@[ext]
structure State where
  /-- `KEY_MAX`, `MSG_MAX`: fixed for the instance, written by nothing (00_scope.md R6; log 3). -/
  params : Params
  /-- `H[0..7]` (R10, R11). -/
  h : Vector Word 8
  /-- `a, b, c, d, e, f, g, h` (R10). -/
  v : WorkVars
  /-- `W[0..63]` (R10). -/
  w : Vector Word 64
  /-- `T`, 0..64 (R14). -/
  t : Nat
  /-- `BLK` (R15). -/
  blk : Nat
  /-- `NBLK` (R15). -/
  nblk : Nat
  /-- `PHASE` (R17). -/
  phase : Phase
  /-- `ERR` (R20). -/
  err : Status
  /-- `KEYBUF` (R36). -/
  keybuf : Memory
  /-- `KEYLEN` (R36). -/
  keyLen : Nat
  /-- `MSGBUF` (R36). -/
  msgbuf : Memory
  /-- `MSGLEN` (R36). -/
  msgLen : Nat
  /-- `WORK` (R36). -/
  work : Memory
  /-- `WORKLEN` (R36). -/
  workLen : Nat
  /-- `K0` (R35). -/
  k0 : Memory
  /-- `INNER` (R35). -/
  inner : Memory
  /-- `DIGEST` (R35). -/
  digest : Memory
  /-- The response to the latest command, if it gave one (30_encoding.md R62, R63; log 2). -/
  resp : Option Response
  /-- The model's own field: what the host and the platform do next, in order (R63, R241; log 1). -/
  host : List HostEvent
  deriving DecidableEq, Repr

/-- An engine with the given parameters right after reset (R38, R240; `a..h` and `T`: log 19), with no command presented
(log 1) and no response given (log 2). -/
def State.resetOf (p : Params) : State where
  params := p
  h := IV
  v := ⟨0, 0, 0, 0, 0, 0, 0, 0⟩
  w := Vector.replicate 64 0
  t := 0
  blk := 0
  nblk := 0
  phase := .init
  err := .ok
  keybuf := []
  keyLen := 0
  msgbuf := []
  msgLen := 0
  work := []
  workLen := 0
  k0 := []
  inner := []
  digest := []
  resp := none
  host := []

/-- The engine right after reset, at the reference parameters (log 3). -/
def State.reset : State := State.resetOf Params.reference

/-- What a meaning or a micro-operation answers. -/
abbrev Result := Host.Outcome State Fault Refusal

end Sys2Proof.Machine
end

