-- ==== Sys2Proof/Machine/Ops.lean ====
section
/-! DEFINITION. The shared operations: capacities, spaces, sequencing, responding, raising an error, reset. -/

namespace Sys2Proof.Machine

/-- `SEQ_MAX`, the longest sequence the engine hashes (00_scope.md R6). -/
def seqMax (p : Params) : Nat := max (64 + p.msgMax.val) (max p.keyMax.val 96)

/-- `WORK_MAX = 64 · ⌈(SEQ_MAX + 9) / 64⌉` (R6). -/
def workMax (p : Params) : Nat := 64 * ((seqMax p + 9 + 63) / 64)

/-- The size of a space in bytes (20_memory.md R40). -/
def Space.size (p : Params) : Space → Nat
  | .keybuf => p.keyMax.val
  | .msgbuf => p.msgMax.val
  | .work => workMax p
  | .k0 => 64
  | .inner => 32
  | .digest => 32

/-- The bytes of a space. -/
def State.space (s : State) : Space → Memory
  | .keybuf => s.keybuf
  | .msgbuf => s.msgbuf
  | .work => s.work
  | .k0 => s.k0
  | .inner => s.inner
  | .digest => s.digest

/-- The state with the bytes of one space replaced. -/
def State.setSpace (s : State) (sp : Space) (m : Memory) : State :=
  match sp with
  | .keybuf => { s with keybuf := m }
  | .msgbuf => { s with msgbuf := m }
  | .work => { s with work := m }
  | .k0 => { s with k0 := m }
  | .inner => { s with inner := m }
  | .digest => { s with digest := m }

/-- One byte of a space. -/
def State.byteAt (s : State) (sp : Space) (a : Nat) : Byte := Memory.read (s.space sp) a

/-- The content `BUF[0..n)` of a space (R36). -/
def State.content (s : State) (sp : Space) (n : Nat) : List Byte := Memory.bytes (s.space sp) 0 n

/-- `KEYBUF[0..KEYLEN)`. -/
def State.keyBytes (s : State) : List Byte := s.content .keybuf s.keyLen

/-- `MSGBUF[0..MSGLEN)`. -/
def State.msgBytes (s : State) : List Byte := s.content .msgbuf s.msgLen

/-- `WORK[0..WORKLEN)`. -/
def State.workBytes (s : State) : List Byte := s.content .work s.workLen

/-- `DIGEST[0..32)`. -/
def State.digestBytes (s : State) : List Byte := s.content .digest 32

/-- Two operations in order; the second uses the state the first left. -/
def andThen (r : Result) (f : State → Result) : Result :=
  match r with
  | .next s => f s
  | .fault x => .fault x
  | .refused x => .refused x

/-- `MemRead(S, addr, n)` (R7), handed to what uses it; a location that does not exist faults (log 8). -/
def memRead (sp : Space) (a n : Nat) (s : State) (use : List Byte → Result) : Result :=
  if a + n ≤ sp.size s.params then use (Memory.bytes (s.space sp) a n) else .fault (.noSuchAddress sp)

/-- `MemWrite(S, addr, len(bs), bs)` (R7); a location that does not exist faults (log 8). -/
def memWrite (sp : Space) (a : Nat) (bs : List Byte) (s : State) : Result :=
  if a + bs.length ≤ sp.size s.params then .next (s.setSpace sp (Memory.write (s.space sp) a bs))
  else .fault (.noSuchAddress sp)

/-- `respond(OK, data)`: the command succeeds; `ERR` is not written (R7, R174). -/
def respond (data : Byte) (s : State) : Result := .next { s with resp := some ⟨.ok, data⟩ }

/-- `raise E`, the engine's whole exception mechanism (60_exceptions.md R212): `ERR <- code(E)`, the response
`code(E):00`, no other change. Nothing is saved, no control is transferred and there is no return (R221, R222). -/
def raise (e : Status) (s : State) : Result := .next { s with err := e, resp := some ⟨e, 0⟩ }

/-- Reset of the engine (70_reset_and_hazards.md R240): every piece of state at its reset value. The parameters and what
the host does next are not engine state; no response is given (R241). -/
def resetEngine (s : State) : State := { State.resetOf s.params with host := s.host }

end Sys2Proof.Machine
end

