-- ==== Sys2Proof/Machine/Flags.lean ====
section
/-! DEFINITION. Codes of `PHASE` and `ERR`, `STATUS`, and the phase checks of the commands (spec 10_state.md R17 to R20,
R30; 60_exceptions.md R210, R214). There are no arithmetic condition codes (R19). -/

namespace Sys2Proof.Machine

/-- The encoding of `PHASE` (R17). -/
def Phase.code : Phase → BitVec 2
  | .init => 0
  | .padded => 1
  | .compressing => 2
  | .finalized => 3

/-- The status codes (R210). -/
def Status.code : Status → Byte
  | .ok => 0x00
  | .eIllegal => 0x01
  | .eSeq => 0x02
  | .eArg => 0x03
  | .eSize => 0x04
  | .eLen => 0x05

/-- The 16-bit response word: `st·2^8 + data` (30_encoding.md R62, 00_scope.md R7). -/
def Response.word (r : Response) : BitVec 16 := r.st.code ++ r.data

/-- `DVALID`, the predicate `PHASE` = `FINALIZED` (R18). -/
def dvalid (s : State) : Bool := decide (s.phase = .finalized)

/-- `STATUS`: bits [1:0] `PHASE`, bit 2 `DVALID`, bits [7:3] zero (R30). -/
def statusByte (s : State) : Byte := 0#5 ++ BitVec.ofBool (dvalid s) ++ s.phase.code

/-- `PAD` is in order (R169). -/
def canPad (s : State) : Bool := decide (s.phase = .init)

/-- `COMPRESS` is in order (R170). -/
def canCompress (s : State) : Bool :=
  decide ((s.phase = .padded ∨ s.phase = .compressing) ∧ s.blk ≠ s.nblk)

/-- `FINALIZE` is in order (R171). -/
def canFinalize (s : State) : Bool := decide (s.phase = .compressing ∧ s.blk = s.nblk)

end Sys2Proof.Machine
end

