-- ==== Sys2Proof/Machine/Operands.lean ====
section
/-! DEFINITION. What the operand of a command addresses: the status window and the digest index (spec 10_state.md R30 to
R34; 30_encoding.md R61; 20_memory.md R42). A data byte is used as it stands. -/

namespace Sys2Proof.Machine

/-- The five 32-bit counters in window order (R32). -/
def counterWords (s : State) : List Word :=
  [s.keyLen, s.msgLen, s.workLen, s.nblk, s.blk].map (BitVec.ofNat 32)

/-- The byte at a status-window address, `none` at a reserved one (R30 to R34). -/
def window (s : State) (a : Nat) : Option Byte :=
  if a = 0x00 then some (statusByte s)
  else if a = 0x01 then some s.err.code
  else if 0x04 ≤ a ∧ a ≤ 0x17 then (wordsToBytes (counterWords s))[a - 0x04]?
  else if a = 0x18 then some (BitVec.ofNat 8 s.t)
  else if 0x20 ≤ a ∧ a ≤ 0x3F then (wordsToBytes s.h.toList)[a - 0x20]?
  else if 0x40 ≤ a ∧ a ≤ 0x5F then (wordsToBytes s.v.toVector.toList)[a - 0x40]?
  else none

/-- The reserved window addresses (R34). -/
def reservedAddress (a : Nat) : Bool :=
  decide (a = 0x02 ∨ a = 0x03 ∨ (0x19 ≤ a ∧ a ≤ 0x1F) ∨ 0x60 ≤ a)

/-- The digest index is in range (R61, R172). -/
def digestIndex (i : Nat) : Bool := decide (i < 32)

end Sys2Proof.Machine
end

