-- ==== Sys2Proof/Machine/Micro.lean ====
section
/-! DEFINITION. The micro-operations (spec 41_sha256_stages.md R120 to R124; 42_hmac.md R141, R144). -/

namespace Sys2Proof.Machine

/-- `U_INIT(m)`: enter Init with input `m` (R120). Bytes of `WORK` beyond the new content stay (20_memory.md R55). -/
def uInit (m : List Byte) (s : State) : Result :=
  andThen (memWrite .work 0 m s) fun s =>
  .next { s with workLen := m.length, h := IV, blk := 0, nblk := 0, phase := .init }

/-- `U_PAD`: the content of `WORK` becomes `pad(content)` (R121). -/
def uPad (s : State) : Result :=
  if s.workLen ≤ LIMIT then
    let len := s.workLen
    let tail := padTail len
    andThen (memWrite .work len tail s) fun s =>
    .next { s with workLen := len + tail.length, nblk := (len + tail.length) / 64, blk := 0, phase := .padded }
  else .refused .beyondLimit

/-- `U_SCHED`: the schedule of block `BLK` (R122, R112, R113). -/
def uSched (s : State) : Result :=
  memRead .work (64 * s.blk) 64 s fun bs => .next { s with w := schedule (toBlock bs) }

/-- `U_WVINIT` (R122). -/
def uWvinit (s : State) : Result := .next { s with v := WorkVars.ofHash s.h, t := 0 }

/-- `U_ROUND`: requires `T` < 64; uses `K[T]` and `W[T]`, then increments `T` (R122, R14). -/
def uRound (s : State) : Result :=
  if ht : s.t < 64 then .next { s with v := round s.v K[s.t] s.w[s.t], t := s.t + 1 }
  else .fault .roundOutOfRange

/-- `U_ROUND × n` (R122). -/
def uRounds : Nat → State → Result
  | 0, s => .next s
  | n + 1, s => andThen (uRound s) (uRounds n)

/-- `U_ADDBACK`: requires `T` = 64 (R122, R116). -/
def uAddback (s : State) : Result :=
  if s.t = 64 then .next { s with h := addBack s.h s.v } else .fault .roundsNotDone

/-- `U_NEXT` (R122). -/
def uNext (s : State) : Result := .next { s with blk := s.blk + 1, phase := .compressing }

/-- `U_COMPRESS`: compress block `BLK`, its five micro-operations in order (R122). -/
def uCompress (s : State) : Result :=
  andThen (uSched s) fun s => andThen (uWvinit s) fun s => andThen (uRounds 64 s) fun s =>
  andThen (uAddback s) uNext

/-- `U_COMPRESS` repeated while `BLK` < `NBLK`, at most `n` times (R124, R125). -/
def uCompressAll : Nat → State → Result
  | 0, s => .next s
  | n + 1, s => if s.blk < s.nblk then andThen (uCompress s) (uCompressAll n) else .next s

/-- `U_FINALIZE` (R123). -/
def uFinalize (s : State) : Result :=
  andThen (memWrite .digest 0 (finalize s.h) s) fun s => .next { s with phase := .finalized }

/-- `U_HASH(m)`: a whole hash of `m` on the engine; the block loop is bounded by `NBLK` (R124, R125). -/
def uHash (m : List Byte) (s : State) : Result :=
  andThen (uInit m s) fun s => andThen (uPad s) fun s => andThen (uCompressAll s.nblk s) uFinalize

/-- `U_KPREP`: prepare the key into `K0` (R141). -/
def uKprep (s : State) : Result :=
  memRead .keybuf 0 s.keyLen s fun key =>
  if s.keyLen > 64 then
    andThen (uHash key s) fun s =>
    memRead .digest 0 32 s fun d => memWrite .k0 0 (concatBytes d (List.replicate 32 0)) s
  else memWrite .k0 0 (concatBytes key (List.replicate (64 - s.keyLen) 0)) s

/-- `U_HASH` of `(K0 xor mask) ++ rest`, as the INNER and OUTER passes of the controller need it (R144, R142). -/
def uHashMasked (mask rest : List Byte) (s : State) : Result :=
  memRead .k0 0 64 s fun k =>
  match xorBytes k mask with
  | some masked => uHash (concatBytes masked rest) s
  | none => .fault .lengthMismatch

/-- The INNER pass (R144). -/
def uInner (s : State) : Result :=
  memRead .msgbuf 0 s.msgLen s fun msg =>
  andThen (uHashMasked ipad64 msg s) fun s =>
  memRead .digest 0 32 s fun d => memWrite .inner 0 d s

/-- The OUTER pass (R144). -/
def uOuter (s : State) : Result :=
  memRead .inner 0 32 s fun inner => uHashMasked opad64 inner s

/-- The HMAC controller: KEYHASH, INNER, OUTER in order (R144). -/
def uHmac (s : State) : Result := andThen (uKprep s) fun s => andThen (uInner s) uOuter

end Sys2Proof.Machine
end

