-- ==== Sys2Proof/Machine/Housekeeping.lean ====
section
/-! DEFINITION. `NOP`, `CLR`, `KPUSH`, `MPUSH`, `KCLR`, `MCLR` (spec 43_commands.md section 1). -/

namespace Sys2Proof.Machine

/-- `NOP` (R160). -/
def execNop (s : State) : Result := respond 0 s

/-- `CLR`: every piece of state takes its reset value (R161, R240; log 20). -/
def execClr (s : State) : Result := respond 0 (resetEngine s)

/-- `KPUSH b` (R162). -/
def execKpush (b : Byte) (s : State) : Result :=
  if s.keyLen = s.params.keyMax.val then raise .eSize s
  else andThen (memWrite .keybuf s.keyLen [b] s) fun s => respond 0 { s with keyLen := s.keyLen + 1 }

/-- `MPUSH b` (R163). -/
def execMpush (b : Byte) (s : State) : Result :=
  if s.msgLen = s.params.msgMax.val then raise .eSize s
  else andThen (memWrite .msgbuf s.msgLen [b] s) fun s => respond 0 { s with msgLen := s.msgLen + 1 }

/-- `KCLR`: the bytes of `KEYBUF` are not erased (R164). -/
def execKclr (s : State) : Result := respond 0 { s with keyLen := 0 }

/-- `MCLR`: the bytes of `MSGBUF` are not erased (R165). -/
def execMclr (s : State) : Result := respond 0 { s with msgLen := 0 }

end Sys2Proof.Machine
end

