-- ==== Sys2Proof/Machine/Reads.lean ====
section
/-! DEFINITION. `RDD` and `RDS` (spec 43_commands.md section 4). -/

namespace Sys2Proof.Machine

/-- `RDD i`: the phase check first, then the index (R172, 60_exceptions.md R220). -/
def execRdd (i : Nat) (s : State) : Result :=
  if dvalid s then
    if digestIndex i then respond (s.byteAt .digest i) s else raise .eArg s
  else raise .eSeq s

/-- `RDS a`: allowed in every phase (R173). -/
def execRds (a : Nat) (s : State) : Result :=
  match window s a with
  | some b => respond b s
  | none => raise .eArg s

end Sys2Proof.Machine
end

