-- ==== Sys2Proof/Machine/Stage.lean ====
section
/-! DEFINITION. The stage commands `WLOAD`, `PAD`, `COMPRESS`, `FINALIZE` (spec 43_commands.md section 3). -/

namespace Sys2Proof.Machine

/-- `WLOAD`: `U_INIT(MSGBUF[0..MSGLEN))`, allowed in every phase (R168). -/
def execWload (s : State) : Result :=
  memRead .msgbuf 0 s.msgLen s fun msg => andThen (uInit msg s) (respond 0)

/-- `PAD` (R169). -/
def execPad (s : State) : Result := if canPad s then andThen (uPad s) (respond 0) else raise .eSeq s

/-- `COMPRESS` (R170). -/
def execCompress (s : State) : Result :=
  if canCompress s then andThen (uCompress s) (respond 0) else raise .eSeq s

/-- `FINALIZE` (R171). -/
def execFinalize (s : State) : Result :=
  if canFinalize s then andThen (uFinalize s) (respond 0) else raise .eSeq s

end Sys2Proof.Machine
end

