-- ==== Sys2Proof/Machine/Whole.lean ====
section
/-! DEFINITION. `SHA256` and `HMAC` (spec 43_commands.md section 2). -/

namespace Sys2Proof.Machine

/-- `SHA256`: `U_HASH(MSGBUF[0..MSGLEN))`, allowed in every phase (R166). -/
def execSha256 (s : State) : Result :=
  memRead .msgbuf 0 s.msgLen s fun msg => andThen (uHash msg s) (respond 0)

/-- `HMAC`: the controller sequence, allowed in every phase (R167). -/
def execHmac (s : State) : Result := andThen (uHmac s) (respond 0)

end Sys2Proof.Machine
end

