-- ==== Sys2Proof/Machine/Dispatch.lean ====
section
/-! DEFINITION. One arm per command (spec 43_commands.md). -/

namespace Sys2Proof.Machine

def exec (i : Instr) (s : State) : Host.Outcome State Fault Refusal :=
  match i with
  | .nop => Sys2Proof.Machine.execNop s
  | .clr => Sys2Proof.Machine.execClr s
  | .kpush b => Sys2Proof.Machine.execKpush b s
  | .mpush b => Sys2Proof.Machine.execMpush b s
  | .kclr => Sys2Proof.Machine.execKclr s
  | .mclr => Sys2Proof.Machine.execMclr s
  | .sha256 => Sys2Proof.Machine.execSha256 s
  | .hmac => Sys2Proof.Machine.execHmac s
  | .wload => Sys2Proof.Machine.execWload s
  | .pad => Sys2Proof.Machine.execPad s
  | .compress => Sys2Proof.Machine.execCompress s
  | .finalize => Sys2Proof.Machine.execFinalize s
  | .rdd k => Sys2Proof.Machine.execRdd k s
  | .rds a => Sys2Proof.Machine.execRds a s

end Sys2Proof.Machine
end

