-- ==== Sys2Proof/Machine/Accept.lean ====
section
/-! DEFINITION. What the engine does with a command word and with a reset event (spec 43_commands.md R174;
70_reset_and_hazards.md R241). -/

namespace Sys2Proof.Machine

/-- A command word is decoded first; a reserved word raises `E_ILLEGAL` and nothing else applies (R174 (1), R66). -/
def acceptCommand (c : CmdWord) (s : State) : Result :=
  match decode c with
  | .ok i => exec i s
  | .error _ => raise .eIllegal s

/-- The next thing the outside world does, `host` already past it. A reset event, also one that arrives during a command,
leaves the reset state and no response (R241). -/
def acceptEvent (e : HostEvent) (s : State) : Result :=
  match e with
  | .command c => acceptCommand c s
  | .reset => .next (resetEngine s)
  | .resetDuring _ => .next (resetEngine s)

end Sys2Proof.Machine
end

