-- ==== Sys2Proof/Machine/Step.lean ====
section
/-! DEFINITION. One step of the machine: one event of the outside world, executed to completion (spec 00_scope.md R8). -/

namespace Sys2Proof.Machine

/-- Between commands the engine is idle and loses no state (60_exceptions.md R233); a command executes to completion
before the next is accepted (30_encoding.md R63). -/
def step (s : State) : Host.Outcome State Fault Refusal :=
  match s.host with
  | [] => .next s
  | e :: rest => acceptEvent e { s with host := rest }

/-- The state whose very next step executes the given command word: the host presents it before all else (log 4). The
interface carries one 16-bit word (R60); higher bits are zero by the host's contract. -/
def State.withFetchWord (s : State) (nbits w : Nat) : State :=
  { s with host := .command (BitVec.ofNat 16 (w % 2 ^ nbits)) :: s.host }

end Sys2Proof.Machine
end

