-- ==== Sys2Proof/Machine/HostCodec.lean ====
section
/-! DEFINITION. The host-side functions around the engine: text, hex, verify (spec 44_host_codec.md R190 to R199). They
are outside the hardware boundary (00_scope.md R4): no step uses them. Texts are lists of characters (log 12). -/

namespace Sys2Proof.Machine

/-- A text string. -/
abbrev Text := List Char

/-- What host software reports (R199). `FilesystemError` belongs to the code generator and is out of scope (00_scope.md
R5 (e)). -/
inductive HostError where
  | invalidHex
  | unsupportedInputSize
  /-- A C entry point was given a null pointer (R201). -/
  | nullInput
  deriving DecidableEq, Repr

/-- A pure function outside its length limits has no result, which host software reports (R199). -/
def orUnsupported {α : Type} : Option α → Except HostError α
  | some x => .ok x
  | none => .error .unsupportedInputSize

/-- UTF-8 of one character: one byte for 7-bit ASCII (R191, decision D21, log 12). -/
def utf8 (c : Char) : List Byte :=
  let n := c.toNat
  if n < 0x80 then [BitVec.ofNat 8 n]
  else if n < 0x800 then [BitVec.ofNat 8 (0xC0 + n / 64), BitVec.ofNat 8 (0x80 + n % 64)]
  else if n < 0x10000 then
    [BitVec.ofNat 8 (0xE0 + n / 4096), BitVec.ofNat 8 (0x80 + n / 64 % 64), BitVec.ofNat 8 (0x80 + n % 64)]
  else
    [BitVec.ofNat 8 (0xF0 + n / 262144), BitVec.ofNat 8 (0x80 + n / 4096 % 64),
      BitVec.ofNat 8 (0x80 + n / 64 % 64), BitVec.ofNat 8 (0x80 + n % 64)]

/-- `stringToBytes(s)` (R191). -/
def stringToBytes (s : Text) : List Byte := s.flatMap utf8

/-- The alphabet `0123456789abcdef` (R193). -/
def hexAlphabet : Text := ['0', '1', '2', '3', '4', '5', '6', '7', '8', '9', 'a', 'b', 'c', 'd', 'e', 'f']

/-- The lower-case hex digit of a nibble (R193). -/
def hexChar (n : BitVec 4) : Char := hexAlphabet.getD n.toNat '0'

/-- `bytesToHex(b)`: high nibble first, lower case, two characters a byte (R193). -/
def bytesToHex (b : List Byte) : Text :=
  b.flatMap fun x => [hexChar (x.extractLsb' 4 4), hexChar (x.extractLsb' 0 4)]

/-- The value of a hex character; `A..F` only where `HEX_UPPER_OK` (R192). -/
def hexValue (upperOk : Bool) (c : Char) : Option (BitVec 4) :=
  let n := c.toNat
  if 0x30 ≤ n ∧ n ≤ 0x39 then some (BitVec.ofNat 4 (n - 0x30))
  else if 0x61 ≤ n ∧ n ≤ 0x66 then some (BitVec.ofNat 4 (n - 0x61 + 10))
  else if upperOk = true ∧ 0x41 ≤ n ∧ n ≤ 0x46 then some (BitVec.ofNat 4 (n - 0x41 + 10))
  else none

/-- `hexToBytes(t)`, for either value of `HEX_UPPER_OK`; fails on odd length or a non-hex character (R192). -/
def hexToBytes (upperOk : Bool) : Text → Except HostError (List Byte)
  | [] => .ok []
  | [_] => .error .invalidHex
  | hi :: lo :: rest =>
    match hexValue upperOk hi, hexValue upperOk lo, hexToBytes upperOk rest with
    | some x, some y, .ok bs => .ok ((x ++ y) :: bs)
    | _, _, _ => .error .invalidHex

/-- `sha256Hex(s)` (R195). -/
def sha256Hex (s : Text) : Except HostError Text := (orUnsupported (sha256 (stringToBytes s))).map bytesToHex

/-- `sha256Verify(b, t)`: equality of texts (R196). -/
def sha256Verify (b : List Byte) (t : Text) : Except HostError Bool :=
  (orUnsupported (sha256 b)).map fun d => decide (bytesToHex d = t)

/-- `verify(key, msg, expectedHex)`, also named `hmacSha256Verify` (R197, R190). -/
def verify (key msg : List Byte) (expectedHex : Text) : Except HostError Bool :=
  (orUnsupported (hmac key msg)).map fun d => decide (bytesToHex d = expectedHex)

/-- `hexVariant(keyHex, msgHex)`, also named `hmacSha256Hex` (R198, R190). -/
def hexVariant (upperOk : Bool) (keyHex msgHex : Text) : Except HostError Text :=
  match hexToBytes upperOk keyHex, hexToBytes upperOk msgHex with
  | .ok k, .ok m => (orUnsupported (hmac k m)).map bytesToHex
  | _, _ => .error .invalidHex

end Sys2Proof.Machine
end

