-- ==== Sys2Proof/Machine/Asm.lean ====
section
/-! DEFINITION. Assembler syntax, pseudo-commands and the host's conversations with the engine (spec 30_encoding.md R69
to R71; 44_host_codec.md R199). None is part of a step. -/

namespace Sys2Proof.Machine

/-- The mnemonic in upper case (R69). -/
def mnemonicText : Instr → Text
  | .nop => ['N', 'O', 'P']
  | .clr => ['C', 'L', 'R']
  | .kpush _ => ['K', 'P', 'U', 'S', 'H']
  | .mpush _ => ['M', 'P', 'U', 'S', 'H']
  | .kclr => ['K', 'C', 'L', 'R']
  | .mclr => ['M', 'C', 'L', 'R']
  | .sha256 => ['S', 'H', 'A', '2', '5', '6']
  | .hmac => ['H', 'M', 'A', 'C']
  | .wload => ['W', 'L', 'O', 'A', 'D']
  | .pad => ['P', 'A', 'D']
  | .compress => ['C', 'O', 'M', 'P', 'R', 'E', 'S', 'S']
  | .finalize => ['F', 'I', 'N', 'A', 'L', 'I', 'Z', 'E']
  | .rdd _ => ['R', 'D', 'D']
  | .rds _ => ['R', 'D', 'S']

/-- The operand of a command that has one (R61). -/
def operand : Instr → Option Byte
  | .kpush b => some b
  | .mpush b => some b
  | .rdd i => some (BitVec.ofNat 8 i)
  | .rds a => some (BitVec.ofNat 8 a)
  | _ => none

/-- One line of assembler text for a command: mnemonic, then `0x` and two hex digits if it has an argument (R69). -/
def asmText (i : Instr) : Text :=
  match operand i with
  | some b => mnemonicText i ++ [' ', '0', 'x'] ++ bytesToHex [b]
  | none => mnemonicText i

/-- A response in assembler notation, `-> st:data` (R69). -/
def responseText (r : Response) : Text :=
  ['-', '>', ' '] ++ bytesToHex [r.st.code] ++ [':'] ++ bytesToHex [r.data]

/-- The words of a line, separated by spaces or tabs (R69; the separators are a DESIGN CHOICE, log 13). -/
def splitWords : Text → Text → List Text
  | cur, [] => if cur = [] then [] else [cur]
  | cur, c :: rest =>
    if c = ' ' ∨ c = '\t' then (if cur = [] then splitWords [] rest else cur :: splitWords [] rest)
    else splitWords (cur ++ [c]) rest

/-- A decimal digit. -/
def decDigit (c : Char) : Option Nat :=
  if 0x30 ≤ c.toNat ∧ c.toNat ≤ 0x39 then some (c.toNat - 0x30) else none

/-- The number a digit string writes in a base, from an accumulator. -/
def digitsFrom (base : Nat) (digit : Char → Option Nat) : Nat → Text → Option Nat
  | acc, [] => some acc
  | acc, c :: rest =>
    match digit c with
    | some d => digitsFrom base digit (acc * base + d) rest
    | none => none

/-- A number in 0..255, `0x` hexadecimal or decimal (R69). -/
def parseNumber (t : Text) : Option Nat :=
  let value := match t with
    | '0' :: 'x' :: d :: ds => digitsFrom 16 (fun c => (hexValue true c).map BitVec.toNat) 0 (d :: ds)
    | d :: ds => digitsFrom 10 decDigit 0 (d :: ds)
    | [] => none
  value.bind fun n => if n < 256 then some n else none

/-- The command without argument that a mnemonic names. -/
def plainCommand (m : Text) : Option Instr :=
  [Instr.nop, .clr, .kclr, .mclr, .sha256, .hmac, .wload, .pad, .compress, .finalize].find?
    fun i => decide (mnemonicText i = m)

/-- The command with argument `n` that a mnemonic names. -/
def argCommand (m : Text) (n : Nat) : Option Instr :=
  [Instr.kpush (BitVec.ofNat 8 n), .mpush (BitVec.ofNat 8 n), .rdd n, .rds n].find?
    fun i => decide (mnemonicText i = m)

/-- One line of assembler text: `some none` for a line without a command, `none` for a line that is no command (R69). -/
def assembleLine (line : Text) : Option (Option Instr) :=
  match splitWords [] (line.takeWhile fun c => decide (c ≠ ';')) with
  | [] => some none
  | [m] => (plainCommand m).map some
  | [m, n] => (parseNumber n).bind fun k => (argCommand m k).map some
  | _ => none

/-- `KLOAD b0 ... bn-1` (R70). -/
def kload (bs : List Byte) : List Instr := .kclr :: bs.map .kpush

/-- `MLOAD b0 ... bn-1` (R70). -/
def mload (bs : List Byte) : List Instr := .mclr :: bs.map .mpush

/-- `RDDIGEST` (R70). -/
def rddigest : List Instr := (List.range 32).map .rdd

/-- `RDH` (R70). -/
def rdh : List Instr := (List.range 32).map fun k => .rds (0x20 + k)

/-- `RDV` (R70). -/
def rdv : List Instr := (List.range 32).map fun k => .rds (0x40 + k)

/-- `HASHSTEP`, `nblk` the number of blocks of the padded message (R70). -/
def hashstep (nblk : Nat) : List Instr := [.wload, .pad] ++ List.replicate nblk .compress ++ [.finalize]

/-- `sha256(m)` as commands (R71). -/
def sha256Commands (m : List Byte) : List Instr := mload m ++ [.sha256] ++ rddigest

/-- `hmacSha256(k, m)` as commands (R71). -/
def hmacCommands (k m : List Byte) : List Instr := kload k ++ mload m ++ [.hmac] ++ rddigest

/-- Commands executed one after the other (20_memory.md R50). -/
def runCommands : List Instr → State → Result
  | [], s => .next s
  | i :: is, s => andThen (exec i s) (runCommands is)

/-- A host's conversation: the words sent in order, the responses received, the state after (R63). `none` if the engine
stops or a word gets no response. -/
def converse : List CmdWord → State → Option (List Response × State)
  | [], s => some ([], s)
  | c :: cs, s =>
    match acceptCommand c s with
    | .next t =>
      match t.resp, converse cs t with
      | some r, some (rs, u) => some (r :: rs, u)
      | _, _ => none
    | _ => none

/-- A host driver that hashes on the engine, the answer and the engine after. More than `MSG_MAX` bytes are reported
without a push (44_host_codec.md R199; log 12). -/
def driverSha256 (m : List Byte) (s : State) : Option (Except HostError (List Byte) × State) :=
  if m.length ≤ s.params.msgMax.val then
    (converse ((sha256Commands m).map encode) s).map fun r =>
      (.ok ((r.1.drop (m.length + 2)).map Response.data), r.2)
  else some (.error .unsupportedInputSize, s)

/-- A host driver that authenticates on the engine; a key beyond `KEY_MAX` is reported too (R199; log 12). -/
def driverHmac (k m : List Byte) (s : State) : Option (Except HostError (List Byte) × State) :=
  if k.length ≤ s.params.keyMax.val ∧ m.length ≤ s.params.msgMax.val then
    (converse ((hmacCommands k m).map encode) s).map fun r =>
      (.ok ((r.1.drop (k.length + m.length + 3)).map Response.data), r.2)
  else some (.error .unsupportedInputSize, s)

end Sys2Proof.Machine
end

