-- ==== Sys2Proof/Machine/CAbi.lean ====
section
/-! DEFINITION. The C entry points and their status convention (spec 44_host_codec.md R201; 00_scope.md R4). They are
outside the hardware boundary: no step uses them. What R201 leaves open is a free value of Config.lean (log 16). -/

namespace Sys2Proof.Machine

/-- What a C entry point answers. -/
structure CResult where
  /-- "an integer status (0 success, negative on null input)". -/
  status : Int
  /-- The bytes in the caller's output buffer; `none` where the spec does not say what it holds. -/
  out : Option (List Byte)
  deriving DecidableEq, Repr

/-- The byte sequence an input stands for. -/
def cArgument (c : CCall) : CInput → Except HostError (List Byte)
  | .bytes b => .ok b
  | .null 0 => if cNullEmptyAccepted c then .ok [] else .error .nullInput
  | .null (_ + 1) => .error .nullInput

/-- The key and the message of a call; a hash has no key. -/
def cArguments (c : CCall) : Except HostError (Option (List Byte) × List Byte) :=
  match c with
  | .sha256 m _ => (cArgument c m).map fun m => (none, m)
  | .hmacSha256 k m _ => (cArgument c k).bind fun k => (cArgument c m).map fun m => (some k, m)

/-- The output buffer of the call is null. -/
def cNullOutput : CCall → Bool
  | .sha256 _ o => o
  | .hmacSha256 _ _ o => o

/-- The status and the output for what the function answered: 0 on success, negative on null input. Of any other failure
R201 says nothing. -/
def cReturn (c : CCall) : Except HostError (List Byte) → CResult
  | .ok d => ⟨0, some d⟩
  | .error .nullInput => ⟨-1 - cNullDepth c, none⟩
  | .error _ => ⟨cOpenStatus c, none⟩

/-- A C entry point as a function (R201). Null inputs are looked at first; then a null output buffer, of which R201 says
nothing. -/
def cEntry (c : CCall) : CResult :=
  match cArguments c with
  | .error e => cReturn c (.error e)
  | .ok (key, m) =>
    if cNullOutput c then ⟨cOpenStatus c, none⟩
    else
      match key with
      | none => cReturn c (orUnsupported (sha256 m))
      | some k => cReturn c (orUnsupported (hmac k m))

/-- "A driver for the engine that offers the same surface" (R201): what it answers, and the engine after. A call that is
refused for a null input leaves the engine alone. `none` for a null output buffer, since R201 does not say whether the
engine is used then, or if the engine stops. -/
def cDriver (c : CCall) (s : State) : Option (CResult × State) :=
  match cArguments c with
  | .error e => some (cReturn c (.error e), s)
  | .ok (key, m) =>
    if cNullOutput c then none
    else
      match key with
      | none => (driverSha256 m s).map fun r => (cReturn c r.1, r.2)
      | some k => (driverHmac k m s).map fun r => (cReturn c r.1, r.2)

end Sys2Proof.Machine
end

