-- ==== Sys2Proof/Safety.lean ====
section
/-! DEFINITION. What the statements speak of: the invariant of the state, the meaning of its content, and what a host can
see. -/

namespace Sys2Proof.Machine

/-- Every piece of engine state at the value 70_reset_and_hazards.md R240 lists. The parameters and the interface fields
`resp`, `host` are not among them. -/
structure State.AtReset (s : State) : Prop where
  h : s.h = IV
  v : s.v = ⟨0, 0, 0, 0, 0, 0, 0, 0⟩
  w : ∀ i : Fin 64, s.w[i] = 0
  t : s.t = 0
  blk : s.blk = 0
  nblk : s.nblk = 0
  phase : s.phase = .init
  keyLen : s.keyLen = 0
  msgLen : s.msgLen = 0
  workLen : s.workLen = 0
  /-- Every byte of `KEYBUF`, `MSGBUF`, `WORK`, `K0`, `INNER`, `DIGEST` is 0x00. -/
  bytes : ∀ sp a, s.byteAt sp a = 0
  err : s.err = .ok

/-- Every space is in canonical form and lists no address beyond its size (20_memory.md R40). -/
def State.SpacesOk (s : State) : Prop :=
  ∀ sp : Space, Memory.wf (s.space sp) ∧ Memory.below (s.space sp) (sp.size s.params)

/-- The ranges of the counters (10_state.md section 1; 00_scope.md R6): a sequence that is still to be padded is at most
`SEQ_MAX` bytes. -/
def State.RangesOk (s : State) : Prop :=
  s.keyLen ≤ s.params.keyMax.val ∧ s.msgLen ≤ s.params.msgMax.val ∧ s.workLen ≤ workMax s.params ∧ s.t ≤ 64 ∧
  (s.phase = .init → s.workLen ≤ seqMax s.params)

/-- The invariants of `BLK`, `NBLK`, `WORKLEN` and `PHASE` (10_state.md R15). -/
def State.BlocksOk (s : State) : Prop :=
  s.blk ≤ s.nblk ∧
  (s.phase = .init → s.nblk = 0) ∧
  (s.phase ≠ .init → s.nblk = s.workLen / 64 ∧ 1 ≤ s.nblk ∧ s.workLen % 64 = 0) ∧
  (s.phase = .padded → s.blk = 0) ∧
  (s.phase = .compressing → 1 ≤ s.blk) ∧
  (s.phase = .finalized → s.blk = s.nblk)

/-- The invariant of the machine: what the spec says of every state a run reaches. -/
structure State.Inv (s : State) : Prop where
  spaces : s.SpacesOk
  ranges : s.RangesOk
  blocks : s.BlocksOk
  /-- `E_LEN` is never raised (60_exceptions.md R217). -/
  errOk : s.err ≠ .eLen
  /-- "`DIGEST[4i + k]` = `be32(H[i])[k]` holds whenever `PHASE` = `FINALIZED`" (41_sha256_stages.md R123). -/
  digestOk : s.phase = .finalized → s.digestBytes = finalize s.h

/-- The computation in the engine is the one of `sha256(m)`: `WORK` holds `m`, or `pad(m)` once padded; `H` is the hash
state after `BLK` blocks; a readable digest is `sha256(m)` (60_exceptions.md R214: "a digest that becomes readable is
always the true `sha256` of what was loaded"). -/
structure State.HashesTo (s : State) (m : List Byte) : Prop where
  length : m.length ≤ seqMax s.params
  unpadded : s.phase = .init → s.workBytes = m
  padded : s.phase ≠ .init → pad m = some s.workBytes
  state : s.h = hashBlocks s.workBytes s.blk
  readable : s.phase = .finalized → sha256 m = some s.digestBytes

/-- Some message is the one being hashed. -/
def State.DigestTrue (s : State) : Prop := ∃ m, s.HashesTo m

/-- Two states no host can tell apart (10_state.md R38: `W`, `K0`, `INNER`, a `DIGEST` that is not readable and buffer
bytes beyond the content are unobservable). -/
structure SameView (s s' : State) : Prop where
  params : s.params = s'.params
  h : s.h = s'.h
  v : s.v = s'.v
  t : s.t = s'.t
  blk : s.blk = s'.blk
  nblk : s.nblk = s'.nblk
  phase : s.phase = s'.phase
  err : s.err = s'.err
  keyLen : s.keyLen = s'.keyLen
  msgLen : s.msgLen = s'.msgLen
  workLen : s.workLen = s'.workLen
  key : s.keyBytes = s'.keyBytes
  msg : s.msgBytes = s'.msgBytes
  work : s.workBytes = s'.workBytes
  digest : s.phase = .finalized → s.digestBytes = s'.digestBytes
  resp : s.resp = s'.resp
  host : s.host = s'.host

end Sys2Proof.Machine
end

