-- ==== Sys2Proof/Certificates/Slice0/Obligations.lean ====
section
/-! DEFINITION. The statements about the model, for the provers. Each docstring names the rule or the sentence of the
spec it formalises. -/

open Sys2Proof Sys2Proof.Machine

/-! ## Encoding and decoding -/

/-- Decode and encode agree on every command with every operand (30_encoding.md sections 1 and 2). -/
def Obligations.DecodeOfEncode : Prop :=
  ∀ i : Instr, i.wellFormed = true → decode (encode i) = .ok i

/-- A legal word is the encoding of the command it decodes to: decoding loses no bit (30_encoding.md sections 1, 2). -/
def Obligations.EncodeOfDecode : Prop :=
  ∀ (c : CmdWord) (i : Instr), decode c = .ok i → i.wellFormed = true ∧ encode i = c

/-- R64: the fourteen rows, and "a word `c` selects the row when `c & mask == match`". -/
def Obligations.DecodeSelectsTheRowTheWordMatches : Prop :=
  opcodeTable =
    [⟨"NOP", 0x0000, 0xFFFF⟩, ⟨"CLR", 0x0100, 0xFFFF⟩, ⟨"KPUSH", 0x0200, 0xFF00⟩, ⟨"MPUSH", 0x0300, 0xFF00⟩,
      ⟨"KCLR", 0x0400, 0xFFFF⟩, ⟨"MCLR", 0x0500, 0xFFFF⟩, ⟨"SHA256", 0x1000, 0xFFFF⟩, ⟨"HMAC", 0x1100, 0xFFFF⟩,
      ⟨"WLOAD", 0x2000, 0xFFFF⟩, ⟨"PAD", 0x2100, 0xFFFF⟩, ⟨"COMPRESS", 0x2200, 0xFFFF⟩,
      ⟨"FINALIZE", 0x2300, 0xFFFF⟩, ⟨"RDD", 0x3000, 0xFF00⟩, ⟨"RDS", 0x3100, 0xFF00⟩] ∧
  (∀ (c : CmdWord) (i : Instr), decode c = .ok i → i.row ∈ opcodeTable ∧ c &&& i.row.mask = i.row.pattern) ∧
  (∀ (c : CmdWord) (r : OpcodeRow), r ∈ opcodeTable → c &&& r.mask = r.pattern → ∃ i, decode c = .ok i ∧ i.row = r)

/-- R65, the decoding algorithm: an unassigned `op` is reserved; an operandless `op` with `arg` ≠ 0x00 is reserved;
every other word is the command of its `op`. -/
def Obligations.DecodeIsTotal : Prop :=
  ∀ c : CmdWord,
    let assigned : List Byte := [0x00, 0x01, 0x02, 0x03, 0x04, 0x05, 0x10, 0x11, 0x20, 0x21, 0x22, 0x23, 0x30, 0x31]
    let withArgument : List Byte := [0x02, 0x03, 0x30, 0x31]
    (CmdWord.op c ∉ assigned → decode c = .error .unassignedOpcode) ∧
    (CmdWord.op c ∈ assigned → CmdWord.op c ∉ withArgument → CmdWord.arg c ≠ 0x00 →
      decode c = .error .argumentNotZero) ∧
    (CmdWord.op c ∈ assigned → (CmdWord.op c ∈ withArgument ∨ CmdWord.arg c = 0x00) →
      ∃ i, decode c = .ok i ∧ CmdWord.op i.row.pattern = CmdWord.op c ∧ encode i = c)

/-- R66: which words are reserved, and that each "fails with `E_ILLEGAL`, returns data 0x00, and changes no state except
`ERR`". -/
def Obligations.ReservedWordRaisesIllegal : Prop :=
  (∀ c : CmdWord, (∃ e, decode c = .error e) ↔
    ((0x06 ≤ (CmdWord.op c).toNat ∧ (CmdWord.op c).toNat ≤ 0x0F) ∨
      (0x12 ≤ (CmdWord.op c).toNat ∧ (CmdWord.op c).toNat ≤ 0x1F) ∨
      (0x24 ≤ (CmdWord.op c).toNat ∧ (CmdWord.op c).toNat ≤ 0x2F) ∨
      0x32 ≤ (CmdWord.op c).toNat) ∨
    ((CmdWord.op c).toNat ∈ [0x00, 0x01, 0x04, 0x05, 0x10, 0x11, 0x20, 0x21, 0x22, 0x23] ∧ CmdWord.arg c ≠ 0x00)) ∧
  (∀ (s : State) (c : CmdWord) (rest : List HostEvent) (e : DecodeError),
    s.host = .command c :: rest → decode c = .error e →
    step s = .next { s with host := rest, err := .eIllegal, resp := some ⟨.eIllegal, 0⟩ })

/-- A few words of the opcode map, of 95_test_vectors.md table DV and of the assembler examples decode as listed
(30_encoding.md sections 2 and 5). -/
def Obligations.ListedWordsDecodeAsListed : Prop :=
  decode 0x0000 = .ok .nop ∧ decode 0x02FF = .ok (.kpush 0xFF) ∧ decode 0x0361 = .ok (.mpush 0x61) ∧
  decode 0x1000 = .ok .sha256 ∧ decode 0x1100 = .ok .hmac ∧ decode 0x2200 = .ok .compress ∧
  decode 0x301F = .ok (.rdd 31) ∧ decode 0x3102 = .ok (.rds 2) ∧
  decode 0x0600 = .error .unassignedOpcode ∧ decode 0x1001 = .error .argumentNotZero

/-! ## The step and reset -/

/-- A step executes the command the host presents, at the state with that event consumed; with nothing presented the
engine keeps its state. The event list is the model's own (log 1). -/
def Obligations.StepExecutesThePresentedCommand : Prop :=
  (∀ (s : State) (c : CmdWord) (rest : List HostEvent) (i : Instr),
    s.host = .command c :: rest → decode c = .ok i → step s = exec i { s with host := rest }) ∧
  (∀ s : State, s.host = [] → step s = .next s)

/-- R240: the values reset leaves, for every choice of the open parameters. -/
def Obligations.ResetStateHoldsTheListedValues : Prop :=
  State.reset.AtReset ∧ ∀ p : Params, (State.resetOf p).AtReset

/-- R241: the reset event, a reset during a command, and `CLR`. The parameters are not reset; what the host does next is
the model's own field (log 1). -/
def Obligations.ResetEventAndClrReset : Prop :=
  (∀ (s : State) (rest : List HostEvent) (e : HostEvent),
    s.host = e :: rest → (e = .reset ∨ ∃ c, e = .resetDuring c) →
    ∃ t, step s = .next t ∧ t.AtReset ∧ t.resp = none ∧ t.params = s.params ∧ t.host = rest) ∧
  (∀ s : State, ∃ t, exec .clr s = .next t ∧ t.AtReset ∧ t.resp = some ⟨.ok, 0⟩ ∧ t.params = s.params ∧
    t.host = s.host)

/-- After reset the status window reads the values of 70_reset_and_hazards.md section 1 and every `RDD` raises `E_SEQ`. -/
def Obligations.WindowAfterReset : Prop :=
  ∀ p : Params,
    (∀ a, a ≤ 0x01 ∨ (0x04 ≤ a ∧ a ≤ 0x18) ∨ (0x40 ≤ a ∧ a ≤ 0x5F) →
      exec (.rds a) (State.resetOf p) = .next { State.resetOf p with resp := some ⟨.ok, 0⟩ }) ∧
    (∀ i, i < 32 →
      exec (.rds (0x20 + i)) (State.resetOf p) = .next { State.resetOf p with resp := some ⟨.ok,
        ([0x6a, 0x09, 0xe6, 0x67, 0xbb, 0x67, 0xae, 0x85, 0x3c, 0x6e, 0xf3, 0x72, 0xa5, 0x4f, 0xf5, 0x3a,
          0x51, 0x0e, 0x52, 0x7f, 0x9b, 0x05, 0x68, 0x8c, 0x1f, 0x83, 0xd9, 0xab, 0x5b, 0xe0, 0xcd, 0x19] :
            List Byte).getD i 0⟩ }) ∧
    (∀ i, exec (.rdd i) (State.resetOf p) =
      .next { State.resetOf p with err := .eSeq, resp := some ⟨.eSeq, 0⟩ })

/-- The reset state meets the invariants. -/
def Obligations.ResetMeetsTheInvariants : Prop :=
  ∀ p : Params, (State.resetOf p).Inv ∧ (State.resetOf p).DigestTrue

/-! ## Errors -/

/-- R212: a failed command is "a precise no-op on all state but `ERR`". -/
def Obligations.FailedCommandChangesOnlyErr : Prop :=
  ∀ (i : Instr) (s t : State) (r : Response), exec i s = .next t → t.resp = some r → r.st ≠ .ok →
    t = { s with err := r.st, resp := some ⟨r.st, 0⟩ }

/-- R218: an error records its code in `ERR` and nothing else; `ERR` is overwritten by the next failing command and
cleared only by `CLR` and reset. -/
def Obligations.ErrHoldsTheLatestFailure : Prop :=
  (∀ (i : Instr) (s t : State), exec i s = .next t →
    ∃ r, t.resp = some r ∧
      (r.st ≠ .ok → t = { s with err := r.st, resp := t.resp }) ∧
      (r.st = .ok → i ≠ .clr → t.err = s.err) ∧
      (i = .clr → t.err = .ok)) ∧
  (∀ (s t : State), step s = .next t → s.err ≠ .ok → t.err = .ok →
    ∃ e rest, s.host = e :: rest ∧ (e = .command (encode .clr) ∨ e = .reset ∨ ∃ c, e = .resetDuring c))

/-- R62: every command returns one response word `st·2^8 + data`; `data` is 0x00 except for a successful `RDD` or
`RDS`. -/
def Obligations.EveryCommandReturnsOneResponse : Prop :=
  (∀ r : Response, r.word.extractLsb' 8 8 = r.st.code ∧ r.word.extractLsb' 0 8 = r.data) ∧
  (∀ (i : Instr) (s : State), s.Inv →
    ∃ t r, exec i s = .next t ∧ t.resp = some r ∧
      (r.data ≠ 0 → r.st = .ok ∧ ((∃ k, i = .rdd k) ∨ ∃ a, i = .rds a)))

/-- R210, R217: the codes, and which commands raise them: `E_ILLEGAL` by decode alone, `E_SEQ` by the stage commands and
`RDD`, `E_ARG` by the reads, `E_SIZE` by the pushes, `E_LEN` by nothing. -/
def Obligations.StatusCodesAndWhoRaisesThem : Prop :=
  (Status.code .ok = 0x00 ∧ Status.code .eIllegal = 0x01 ∧ Status.code .eSeq = 0x02 ∧ Status.code .eArg = 0x03 ∧
    Status.code .eSize = 0x04 ∧ Status.code .eLen = 0x05) ∧
  (∀ (i : Instr) (s t : State) (r : Response), exec i s = .next t → t.resp = some r →
    r.st ≠ .eIllegal ∧ r.st ≠ .eLen ∧
    (r.st = .eSeq → i = .pad ∨ i = .compress ∨ i = .finalize ∨ ∃ k, i = .rdd k) ∧
    (r.st = .eArg → (∃ k, i = .rdd k) ∨ ∃ a, i = .rds a) ∧
    (r.st = .eSize → (∃ b, i = .kpush b) ∨ ∃ b, i = .mpush b)) ∧
  (∀ s t : State, step s = .next t → s.err ≠ .eLen → t.err ≠ .eLen)

/-- `E_SEQ` is raised in exactly the cases 60_exceptions.md section 1 lists. -/
def Obligations.SeqErrorExactly : Prop :=
  ∀ (i : Instr) (s t : State) (r : Response), exec i s = .next t → t.resp = some r →
    (r.st = .eSeq ↔
      (i = .pad ∧ s.phase ≠ .init) ∨
      (i = .compress ∧ (s.phase = .init ∨ s.phase = .finalized ∨ s.blk = s.nblk)) ∨
      (i = .finalize ∧ (s.phase ≠ .compressing ∨ s.blk ≠ s.nblk)) ∨
      ((∃ k, i = .rdd k) ∧ s.phase ≠ .finalized))

/-- R215: `E_ARG` is raised in exactly these cases. -/
def Obligations.ArgErrorExactly : Prop :=
  ∀ (i : Instr) (s t : State) (r : Response), i.wellFormed = true → exec i s = .next t → t.resp = some r →
    (r.st = .eArg ↔
      (∃ k, i = .rdd k ∧ 32 ≤ k ∧ s.phase = .finalized) ∨
      (∃ a, i = .rds a ∧ (a = 0x02 ∨ a = 0x03 ∨ (0x19 ≤ a ∧ a ≤ 0x1F) ∨ (0x60 ≤ a ∧ a ≤ 0xFF))))

/-- `E_SIZE` is raised in exactly the cases 60_exceptions.md section 1 lists, and the seven commands it names never
fail. -/
def Obligations.SizeErrorExactlyAndCommandsThatNeverFail : Prop :=
  ∀ (i : Instr) (s t : State) (r : Response), exec i s = .next t → t.resp = some r →
    (r.st = .eSize ↔
      ((∃ b, i = .kpush b) ∧ s.keyLen = s.params.keyMax.val) ∨
      ((∃ b, i = .mpush b) ∧ s.msgLen = s.params.msgMax.val)) ∧
    (i ∈ [Instr.sha256, .hmac, .wload, .nop, .clr, .kclr, .mclr] → r.st = .ok)

/-! ## Invariants of every step -/

/-- Every step keeps the invariant of the machine, and the parameters. -/
def Obligations.StepKeepsTheInvariant : Prop :=
  ∀ s t : State, s.Inv → step s = .next t → t.Inv ∧ t.params = s.params

/-- "The engine is never stuck": in a state with the invariant, a step answers a next state, again with the invariant,
whatever the outside world does, so no fault and no refusal of the model is ever reached (60_exceptions.md section 6). -/
def Obligations.EngineIsNeverStuck : Prop :=
  ∀ s : State, s.Inv → ∃ t, step s = .next t ∧ t.Inv

/-- "a digest that becomes readable is always the true `sha256` of what was loaded" (60_exceptions.md section 1): what is
being hashed stays what the hash state stands for, at every step. -/
def Obligations.StepKeepsReadableDigestsTrue : Prop :=
  ∀ s t : State, s.Inv → s.DigestTrue → step s = .next t → t.DigestTrue

/-- The canonical form of every space is kept by every step, from any state that has it (log 7: the form is the
model's). -/
def Obligations.StepKeepsSpacesCanonical : Prop :=
  ∀ s t : State, (∀ sp, Memory.wf (s.space sp)) → step s = .next t → ∀ sp, Memory.wf (t.space sp)

/-! ## Housekeeping commands -/

/-- R160, R164, R165: `NOP` changes nothing; `KCLR` and `MCLR` empty a sequence and erase no byte. -/
def Obligations.NopKclrMclrResults : Prop :=
  encode .nop = 0x0000 ∧ encode .kclr = 0x0400 ∧ encode .mclr = 0x0500 ∧
  (∀ arg : Byte, arg ≠ 0 → decode (c16 0x00 arg) = .error .argumentNotZero) ∧
  ∀ s : State,
    exec .nop s = .next { s with resp := some ⟨.ok, 0⟩ } ∧
    exec .kclr s = .next { s with keyLen := 0, resp := some ⟨.ok, 0⟩ } ∧
    exec .mclr s = .next { s with msgLen := 0, resp := some ⟨.ok, 0⟩ }

/-- R162: `KPUSH` appends one byte to `KEYBUF`, or raises `E_SIZE` when it is full. -/
def Obligations.KpushAppends : Prop :=
  ∀ (b : Byte) (s : State),
    encode (.kpush b) = 0x0200 ||| b.setWidth 16 ∧
    (s.keyLen = s.params.keyMax.val →
      exec (.kpush b) s = .next { s with err := .eSize, resp := some ⟨.eSize, 0⟩ }) ∧
    (s.keyLen < s.params.keyMax.val →
      ∃ t, exec (.kpush b) s = .next t ∧
        t = { s with keybuf := t.keybuf, keyLen := s.keyLen + 1, resp := some ⟨.ok, 0⟩ } ∧
        ∀ a, t.byteAt .keybuf a = if a = s.keyLen then b else s.byteAt .keybuf a)

/-- R163: `MPUSH` appends one byte to `MSGBUF`, or raises `E_SIZE` when it is full; `WORK` does not change. -/
def Obligations.MpushAppends : Prop :=
  ∀ (b : Byte) (s : State),
    encode (.mpush b) = 0x0300 ||| b.setWidth 16 ∧
    (s.msgLen = s.params.msgMax.val →
      exec (.mpush b) s = .next { s with err := .eSize, resp := some ⟨.eSize, 0⟩ }) ∧
    (s.msgLen < s.params.msgMax.val →
      ∃ t, exec (.mpush b) s = .next t ∧
        t = { s with msgbuf := t.msgbuf, msgLen := s.msgLen + 1, resp := some ⟨.ok, 0⟩ } ∧
        ∀ a, t.byteAt .msgbuf a = if a = s.msgLen then b else s.byteAt .msgbuf a)

/-! ## Stage commands -/

/-- R168: `WLOAD` captures the message in `WORK` and enters Init; after reset it changes nothing. -/
def Obligations.WloadCapturesTheMessage : Prop :=
  encode .wload = 0x2000 ∧
  (∀ s : State, s.msgLen ≤ s.params.msgMax.val →
    ∃ t, exec .wload s = .next t ∧
      t = { s with
        work := t.work, workLen := s.msgLen, h := IV, blk := 0, nblk := 0, phase := .init, resp := some ⟨.ok, 0⟩ } ∧
      t.workBytes = s.msgBytes ∧
      ∀ a, s.msgLen ≤ a → t.byteAt .work a = s.byteAt .work a) ∧
  (∀ p : Params, exec .wload (State.resetOf p) = .next { State.resetOf p with resp := some ⟨.ok, 0⟩ })

/-- R169, R121: `PAD` appends `0x80 ++ 0x00^k ++ 0x00^4 ++ be32(8·L)` with `k = (55 − L) mod 64`, or raises `E_SEQ`
outside phase `INIT`. -/
def Obligations.PadAppendsThePadding : Prop :=
  encode .pad = 0x2100 ∧
  ∀ s : State,
    (s.phase ≠ .init → exec .pad s = .next { s with err := .eSeq, resp := some ⟨.eSeq, 0⟩ }) ∧
    (s.phase = .init → s.workLen ≤ seqMax s.params →
      ∃ (t : State) (k : Nat), exec .pad s = .next t ∧ (k : Int) = (55 - (s.workLen : Int)) % 64 ∧
        t = { s with
          work := t.work, workLen := s.workLen + 9 + k, nblk := (s.workLen + 9 + k) / 64, blk := 0,
          phase := .padded, resp := some ⟨.ok, 0⟩ } ∧
        t.workBytes = s.workBytes ++ [0x80] ++ List.replicate k 0 ++ List.replicate 4 0 ++
          be32 (BitVec.ofNat 32 (8 * s.workLen)) ∧
        pad s.workBytes = some t.workBytes ∧
        ∀ a, a < s.workLen ∨ s.workLen + 9 + k ≤ a → t.byteAt .work a = s.byteAt .work a)

/-- R170: `COMPRESS` compresses block `BLK` of `WORK` into `H`, leaving the schedule in `W`, the working variables
after round 63 in `a..h` and 64 in `T`, or raises `E_SEQ`. -/
def Obligations.CompressCompressesOneBlock : Prop :=
  encode .compress = 0x2200 ∧
  ∀ s : State,
    (¬(s.phase = .padded ∨ s.phase = .compressing) ∨ s.blk = s.nblk →
      exec .compress s = .next { s with err := .eSeq, resp := some ⟨.eSeq, 0⟩ }) ∧
    (s.Inv → (s.phase = .padded ∨ s.phase = .compressing) → s.blk < s.nblk →
      exec .compress s = .next
        { s with
          w := schedule (blockAt s.workBytes s.blk)
          v := rounds (schedule (blockAt s.workBytes s.blk)) (WorkVars.ofHash s.h)
          t := 64
          h := compress s.h (blockAt s.workBytes s.blk)
          blk := s.blk + 1, phase := .compressing, resp := some ⟨.ok, 0⟩ })

/-- R171, R123: `FINALIZE` serialises `H` into `DIGEST`, or raises `E_SEQ`. -/
def Obligations.FinalizeSerialisesTheHash : Prop :=
  encode .finalize = 0x2300 ∧
  ∀ s : State,
    (s.phase ≠ .compressing ∨ s.blk ≠ s.nblk →
      exec .finalize s = .next { s with err := .eSeq, resp := some ⟨.eSeq, 0⟩ }) ∧
    (s.phase = .compressing → s.blk = s.nblk →
      ∃ t, exec .finalize s = .next t ∧
        t = { s with digest := t.digest, phase := .finalized, resp := some ⟨.ok, 0⟩ } ∧
        t.digestBytes = wordsToBytes s.h.toList ∧
        ∀ a, 32 ≤ a → t.byteAt .digest a = s.byteAt .digest a)

/-! ## Whole computations -/

/-- R166: `SHA256` leaves `sha256(MSGBUF[0..MSGLEN))` in `DIGEST`, the padded message in `WORK`, the last block's
residue in `W`, `a..h` and `T`, and writes nothing else. -/
def Obligations.Sha256CommandHashesTheMessage : Prop :=
  encode .sha256 = 0x1000 ∧
  ∀ s : State, s.msgLen ≤ s.params.msgMax.val →
    ∃ t, exec .sha256 s = .next t ∧
      t = { s with
        work := t.work, workLen := t.workLen, nblk := t.workLen / 64, blk := t.workLen / 64, h := t.h, w := t.w,
        v := t.v, t := 64, digest := t.digest, phase := .finalized, resp := some ⟨.ok, 0⟩ } ∧
      sha256 s.msgBytes = some t.digestBytes ∧ t.digestBytes = finalize t.h ∧
      pad s.msgBytes = some t.workBytes ∧
      t.w = schedule (blockAt t.workBytes (t.nblk - 1)) ∧
      t.v = rounds t.w (WorkVars.ofHash (hashBlocks t.workBytes (t.nblk - 1))) ∧
      (∀ a, t.workLen ≤ a → t.byteAt .work a = s.byteAt .work a) ∧
      (∀ a, 32 ≤ a → t.byteAt .digest a = s.byteAt .digest a)

/-- R167: `HMAC` leaves `hmac(KEYBUF[0..KEYLEN), MSGBUF[0..MSGLEN))` in `DIGEST`, the prepared key in `K0`, the
inner digest in `INNER`, the padded outer input in `WORK`, and writes nothing else: beyond the longest padded input of
its passes `WORK` is unchanged. -/
def Obligations.HmacCommandComputesTheMac : Prop :=
  encode .hmac = 0x1100 ∧
  ∀ s : State, s.keyLen ≤ s.params.keyMax.val → s.msgLen ≤ s.params.msgMax.val →
    ∃ t ik ok, exec .hmac s = .next t ∧
      t = { s with
        work := t.work, workLen := 128, nblk := 2, blk := 2, h := t.h, w := t.w, v := t.v, t := 64,
        k0 := t.k0, inner := t.inner, digest := t.digest, phase := .finalized, resp := some ⟨.ok, 0⟩ } ∧
      hmac s.keyBytes s.msgBytes = some t.digestBytes ∧ t.digestBytes = finalize t.h ∧
      prepareKey s.keyBytes = some (t.content .k0 64) ∧
      xorBytes (t.content .k0 64) ipad64 = some ik ∧ sha256 (ik ++ s.msgBytes) = some (t.content .inner 32) ∧
      xorBytes (t.content .k0 64) opad64 = some ok ∧ pad (ok ++ t.content .inner 32) = some t.workBytes ∧
      t.w = schedule (blockAt t.workBytes 1) ∧
      t.v = rounds t.w (WorkVars.ofHash (hashBlocks t.workBytes 1)) ∧
      (∀ a, 128 ≤ a → 64 * ((64 + s.msgLen + 8) / 64 + 1) ≤ a →
        (64 < s.keyLen → 64 * ((s.keyLen + 8) / 64 + 1) ≤ a) → t.byteAt .work a = s.byteAt .work a) ∧
      (∀ a, 64 ≤ a → t.byteAt .k0 a = s.byteAt .k0 a) ∧
      (∀ a, 32 ≤ a → t.byteAt .inner a = s.byteAt .inner a ∧ t.byteAt .digest a = s.byteAt .digest a)

/-! ## Reads -/

/-- R172: `RDD`, the phase check before the index check; a read changes nothing but the response; byte 0 is the most
significant byte of `H[0]`. -/
def Obligations.RddReadsTheDigest : Prop :=
  ∀ (i : Nat) (s : State),
    (i < 256 → encode (.rdd i) = 0x3000 ||| BitVec.ofNat 16 i) ∧
    (s.phase ≠ .finalized → exec (.rdd i) s = .next { s with err := .eSeq, resp := some ⟨.eSeq, 0⟩ }) ∧
    (s.phase = .finalized → 32 ≤ i → exec (.rdd i) s = .next { s with err := .eArg, resp := some ⟨.eArg, 0⟩ }) ∧
    (s.phase = .finalized → i < 32 →
      exec (.rdd i) s = .next { s with resp := some ⟨.ok, s.digestBytes.getD i 0⟩ }) ∧
    (s.Inv → s.phase = .finalized → s.digestBytes.getD 0 0 = s.h[0].extractLsb' 24 8)

/-- R173, R34: `RDS` reads the status window byte by byte, big-endian, or raises `E_ARG` at a reserved address; a read
changes nothing but the response. The byte `k` of a word is `be32(w)[k]`; the counters are the spec's 32-bit words, and `T`
its byte, in every state with the invariant. -/
def Obligations.RdsReadsTheWindow : Prop :=
  ∀ (s : State),
    let reads (a : Nat) (b : Byte) : Prop := exec (.rds a) s = .next { s with resp := some ⟨.ok, b⟩ }
    let byteOf (w : Word) (k : Nat) : Byte := w.extractLsb' (24 - 8 * k) 8
    (∀ a, a < 256 → encode (.rds a) = 0x3100 ||| BitVec.ofNat 16 a) ∧
    (∃ b, reads 0x00 b ∧ b.extractLsb' 0 2 = s.phase.code ∧ (b.getLsbD 2 = true ↔ s.phase = .finalized) ∧
      b.extractLsb' 3 5 = 0) ∧
    reads 0x01 s.err.code ∧
    (s.Inv →
      (∀ k, k < 4 → ∃ w : Word, w.toNat = s.keyLen ∧ reads (0x04 + k) (byteOf w k)) ∧
      (∀ k, k < 4 → ∃ w : Word, w.toNat = s.msgLen ∧ reads (0x08 + k) (byteOf w k)) ∧
      (∀ k, k < 4 → ∃ w : Word, w.toNat = s.workLen ∧ reads (0x0C + k) (byteOf w k)) ∧
      (∀ k, k < 4 → ∃ w : Word, w.toNat = s.nblk ∧ reads (0x10 + k) (byteOf w k)) ∧
      (∀ k, k < 4 → ∃ w : Word, w.toNat = s.blk ∧ reads (0x14 + k) (byteOf w k)) ∧
      ∃ b : Byte, b.toNat = s.t ∧ reads 0x18 b) ∧
    (∀ (i : Fin 8) (k : Nat), k < 4 → reads (0x20 + 4 * i.val + k) (byteOf s.h[i] k)) ∧
    (∀ (i : Fin 8) (k : Nat), k < 4 → reads (0x40 + 4 * i.val + k) (byteOf s.v.toVector[i] k)) ∧
    (∀ a, a = 0x02 ∨ a = 0x03 ∨ (0x19 ≤ a ∧ a ≤ 0x1F) ∨ (0x60 ≤ a ∧ a ≤ 0xFF) →
      exec (.rds a) s = .next { s with err := .eArg, resp := some ⟨.eArg, 0⟩ })

/-- "the host has no command that reads `KEYBUF`, `MSGBUF`, `WORK`, `K0` or `INNER`, and `DIGEST` is readable only when
`PHASE` = `FINALIZED`" (20_memory.md section 5): the response of a read does not depend on the bytes of those spaces. -/
def Obligations.ReadsShowNoOperandSpace : Prop :=
  ∀ (i : Instr) (s s' t t' : State), (∃ k, i = .rdd k) ∨ (∃ a, i = .rds a) →
    s' = { s with
      keybuf := s'.keybuf, msgbuf := s'.msgbuf, work := s'.work, k0 := s'.k0, inner := s'.inner,
      digest := s'.digest } →
    (s.phase = .finalized → s'.digest = s.digest) →
    exec i s = .next t → exec i s' = .next t' → t.resp = t'.resp

/-! ## Rules of the whole machine -/

/-- The "written by" column of the overview table of 10_state.md: each piece of state changes only by the commands that
may write it; `ERR` only by a failing command and `CLR`. -/
def Obligations.StateIsWrittenOnlyByItsCommands : Prop :=
  ∀ (i : Instr) (s t : State), exec i s = .next t →
    (i ∉ [Instr.clr, .sha256, .hmac, .wload, .compress] → t.h = s.h) ∧
    (i ∉ [Instr.clr, .sha256, .hmac, .compress] → t.v = s.v ∧ t.w = s.w ∧ t.t = s.t) ∧
    (i ∉ [Instr.clr, .sha256, .hmac, .wload, .pad, .compress] → t.blk = s.blk) ∧
    (i ∉ [Instr.clr, .sha256, .hmac, .wload, .pad] → t.nblk = s.nblk ∧ t.work = s.work ∧ t.workLen = s.workLen) ∧
    (i ∉ [Instr.clr, .sha256, .hmac, .finalize] → t.digest = s.digest) ∧
    (i ∉ [Instr.clr, .hmac] → t.k0 = s.k0 ∧ t.inner = s.inner) ∧
    ((∀ b, i ≠ .kpush b) → i ≠ .clr → t.keybuf = s.keybuf ∧ (i ≠ .kclr → t.keyLen = s.keyLen)) ∧
    ((∀ b, i ≠ .mpush b) → i ≠ .clr → t.msgbuf = s.msgbuf ∧ (i ≠ .mclr → t.msgLen = s.msgLen)) ∧
    (i ∉ [Instr.clr, .sha256, .hmac, .wload, .pad, .compress, .finalize] → t.phase = s.phase) ∧
    (∀ r, t.resp = some r → r.st = .ok → i ≠ .clr → t.err = s.err) ∧
    t.params = s.params ∧ t.host = s.host

/-- R17: the encoding of `PHASE`, its transitions and no other, and that all four values are reached. `BLK` ≤ `NBLK` is
part of the invariant that every step keeps. -/
def Obligations.PhaseTransitions : Prop :=
  (Phase.code .init = 0 ∧ Phase.code .padded = 1 ∧ Phase.code .compressing = 2 ∧ Phase.code .finalized = 3) ∧
  (∀ (i : Instr) (s t : State), s.blk ≤ s.nblk → exec i s = .next t →
    t.phase =
      if i = .clr ∨ i = .wload then .init
      else if i = .sha256 ∨ i = .hmac then .finalized
      else if i = .pad ∧ s.phase = .init then .padded
      else if i = .compress ∧ (s.phase = .padded ∨ s.phase = .compressing) ∧ s.blk < s.nblk then .compressing
      else if i = .finalize ∧ s.phase = .compressing ∧ s.blk = s.nblk then .finalized
      else s.phase) ∧
  (∀ (p : Params) (ph : Phase), ∃ cmds t, runCommands cmds (State.resetOf p) = .next t ∧ t.phase = ph)

/-- "The exact language of accepted stage-command sequences after a `WLOAD` is `PAD COMPRESS^NBLK FINALIZE`"
(41_sha256_stages.md section 3): in each position exactly one stage command is accepted, and none after the last. -/
def Obligations.OneStageCommandIsAccepted : Prop :=
  ∀ s : State, s.Inv →
    let accepted (i : Instr) : Prop := ∃ t, exec i s = .next t ∧ t.resp = some ⟨.ok, 0⟩
    (s.phase = .init → accepted .pad ∧ ¬accepted .compress ∧ ¬accepted .finalize) ∧
    (s.phase = .padded ∨ (s.phase = .compressing ∧ s.blk ≠ s.nblk) →
      ¬accepted .pad ∧ accepted .compress ∧ ¬accepted .finalize) ∧
    (s.phase = .compressing ∧ s.blk = s.nblk → ¬accepted .pad ∧ ¬accepted .compress ∧ accepted .finalize) ∧
    (s.phase = .finalized → ¬accepted .pad ∧ ¬accepted .compress ∧ ¬accepted .finalize)

/-- "Pushes, `KCLR`, `MCLR`, `NOP`, `RDD`, `RDS` and failing commands do not disturb a finished result"
(70_reset_and_hazards.md section 3). -/
def Obligations.FinishedResultSurvives : Prop :=
  ∀ (i : Instr) (s t : State), exec i s = .next t →
    ((∃ b, i = .kpush b) ∨ (∃ b, i = .mpush b) ∨ i = .kclr ∨ i = .mclr ∨ i = .nop ∨ (∃ k, i = .rdd k) ∨
      (∃ a, i = .rds a) ∨ ∃ r, t.resp = some r ∧ r.st ≠ .ok) →
    t.phase = s.phase ∧ t.h = s.h ∧ t.v = s.v ∧ t.w = s.w ∧ (∀ a, t.byteAt .work a = s.byteAt .work a) ∧
    ∀ k, k < 32 → s.phase = .finalized →
      ∃ u, exec (.rdd k) t = .next u ∧ u.resp = some ⟨.ok, s.byteAt .digest k⟩

/-- `HASHSTEP`, the stage commands by hand, leaves exactly the state that `SHA256` leaves (30_encoding.md section 5,
41_sha256_stages.md section 2). -/
def Obligations.HashstepEqualsSha256 : Prop :=
  ∀ s : State, s.msgLen ≤ s.params.msgMax.val →
    ∃ t, exec .sha256 s = .next t ∧ runCommands (hashstep ((s.msgLen + 8) / 64 + 1)) s = .next t

/-- `MLOAD m; SHA256; RDDIGEST`, sent as command words from any state with the invariant, returns success throughout and
then the 32 bytes of `sha256(m)` (30_encoding.md section 5). -/
def Obligations.Sha256ConversationReturnsTheDigest : Prop :=
  ∀ (s : State) (m : List Byte), s.Inv → m.length ≤ s.params.msgMax.val →
    ∃ t d, sha256 m = some d ∧
      converse ((sha256Commands m).map encode) s =
        some (List.replicate (m.length + 2) ⟨.ok, 0⟩ ++ d.map (fun b => ⟨.ok, b⟩), t)

/-- `KLOAD k; MLOAD m; HMAC; RDDIGEST`, sent as command words from any state with the invariant, returns success
throughout and then the 32 bytes of `hmac(k, m)` (30_encoding.md section 5). -/
def Obligations.HmacConversationReturnsTheMac : Prop :=
  ∀ (s : State) (k m : List Byte), s.Inv → k.length ≤ s.params.keyMax.val → m.length ≤ s.params.msgMax.val →
    ∃ t d, hmac k m = some d ∧
      converse ((hmacCommands k m).map encode) s =
        some (List.replicate (k.length + m.length + 3) ⟨.ok, 0⟩ ++ d.map (fun b => ⟨.ok, b⟩), t)

/-- `W`, `K0`, `INNER`, an unreadable `DIGEST` and buffer bytes beyond their content are unobservable (10_state.md
section 9): two states that differ only there give the same responses at every step, whatever the host does. -/
def Obligations.UnobservableStateStaysUnobserved : Prop :=
  ∀ s s' : State, s.Inv → s'.Inv → SameView s s' →
    ∃ t t', step s = .next t ∧ step s' = .next t' ∧ SameView t t'

/-! ## The pure functions -/

/-- R110, R111: `pad`, its length, and that it has no result beyond `LIMIT`. -/
def Obligations.PadLaws : Prop :=
  ∀ m : List Byte,
    (LIMIT < m.length → pad m = none) ∧
    (m.length ≤ LIMIT →
      ∃ (p : List Byte) (k : Nat), pad m = some p ∧
        p = m ++ [0x80] ++ List.replicate k 0 ++ List.replicate 4 0 ++ be32 (BitVec.ofNat 32 (8 * m.length)) ∧
        (k : Int) = (55 - (m.length : Int)) % 64 ∧
        (m.length + 1 + k) % 64 = 56 ∧ (∀ j, (m.length + 1 + j) % 64 = 56 → k ≤ j) ∧
        8 * m.length < 2 ^ 32 ∧
        p.length = m.length + 9 + k ∧ p.length = 64 * ((m.length + 9 + 63) / 64) ∧ p.length % 64 = 0 ∧
        m.length + 9 ≤ p.length ∧ 64 ≤ p.length ∧ p.take m.length = m ∧
        p.length / 64 = (m.length + 8) / 64 + 1)

/-- R112, R113: the first sixteen schedule words are the block's words, the others follow the recurrence. -/
def Obligations.ScheduleRecurrence : Prop :=
  ∀ b : Block,
    (∀ i : Fin 16, (schedule b)[i.val] = wordOf b[4 * i.val] b[4 * i.val + 1] b[4 * i.val + 2] b[4 * i.val + 3]) ∧
    bytesToWords b.toList = some ((schedule b).toList.take 16) ∧
    (∀ (i : Nat) (h₁ : 16 ≤ i) (h₂ : i < 64),
      (schedule b)[i] =
        (schedule b)[i - 16] + ssig0 (schedule b)[i - 15] + (schedule b)[i - 7] + ssig1 (schedule b)[i - 2]) ∧
    ((∀ i : Fin 64, b[i] = 0) → ∀ i : Fin 64, (schedule b)[i] = 0)

/-- R117, R115: `compress` is 64 rounds from the hash state, in order, and the element-wise add-back; each round computes
the new `a` and `e` as the listed sums mod 2^32 and shifts the other six. -/
def Obligations.CompressRunsSixtyFourRounds : Prop :=
  ∀ (s : Vector Word 8) (b : Block),
    ∃ v : Nat → WorkVars,
      v 0 = ⟨s[0], s[1], s[2], s[3], s[4], s[5], s[6], s[7]⟩ ∧
      (∀ t : Fin 64, v (t.val + 1) = round (v t.val) K[t] (schedule b)[t]) ∧
      (∀ t : Fin 64,
        let x := v t.val
        let y := v (t.val + 1)
        let temp1 := x.h.toNat + (bsig1 x.e).toNat + (ch x.e x.f x.g).toNat + K[t].toNat + (schedule b)[t].toNat
        let temp2 := (bsig0 x.a).toNat + (maj x.a x.b x.c).toNat
        y.a.toNat = (temp1 + temp2) % 2 ^ 32 ∧ y.b = x.a ∧ y.c = x.b ∧ y.d = x.c ∧
          y.e.toNat = (x.d.toNat + temp1) % 2 ^ 32 ∧ y.f = x.e ∧ y.g = x.f ∧ y.h = x.g) ∧
      ∀ i : Fin 8, (compress s b)[i] = add32 s[i] (v 64).toVector[i]

/-- R80, R81, R82: addition mod 2^32, rotation and shift with the amount taken mod 32. -/
def Obligations.AddRotateShiftUnits : Prop :=
  ∀ (x y z : Word) (n : Nat),
    (add32 x y).toNat = (x.toNat + y.toNat) % 2 ^ 32 ∧
    add32 x y = add32 y x ∧ add32 (add32 x y) z = add32 x (add32 y z) ∧ add32 x 0 = x ∧
    (∀ i, i < 32 → (rotr x n).getLsbD i = x.getLsbD ((i + n) % 32)) ∧
    (shr x n).toNat = x.toNat / 2 ^ (n % 32)

/-- `CH` selects and `MAJ` takes the majority at each bit position. The spec marks both definitions "from general
knowledge, not in source" (40_bytecodec_wordops.md section 2; log 10). -/
def Obligations.ChSelectsAndMajCounts : Prop :=
  ∀ (x y z : Word) (i : Nat), i < 32 →
    (ch x y z).getLsbD i = (if x.getLsbD i then y.getLsbD i else z.getLsbD i) ∧
    ((maj x y z).getLsbD i = true ↔
      2 ≤ (x.getLsbD i).toNat + (y.getLsbD i).toNat + (z.getLsbD i).toNat)

/-- `bytesToWords` and `wordsToBytes` are inverse on whole groups; a partial group has no result; the reading of
`PARTIAL_GROUP` makes no difference on whole groups (40_bytecodec_wordops.md section 3, log 11). -/
def Obligations.BytesAndWordsAreInverse : Prop :=
  (∀ ws : List Word, (wordsToBytes ws).length = 4 * ws.length ∧ bytesToWords (wordsToBytes ws) = some ws) ∧
  (∀ s : List Byte, (s.length % 4 ≠ 0 → bytesToWords s = none) ∧
    (s.length % 4 = 0 → ∃ ws, bytesToWords s = some ws ∧ wordsToBytes ws = s ∧ ∀ g, bytesToWordsWith g s = ws))

/-- R92: `xorBytes` fails exactly on different lengths. -/
def Obligations.XorBytesLaws : Prop :=
  ∀ s t : List Byte,
    (s.length ≠ t.length → xorBytes s t = none) ∧
    (s.length = t.length → ∃ u, xorBytes s t = some u ∧ u.length = s.length ∧
      ∀ i, i < s.length → u.getD i 0 = s.getD i 0 ^^^ t.getD i 0)

/-- R140: `prepareKey` "always returns 64 bytes": hashed if longer than 64, zero-padded on the right otherwise. -/
def Obligations.PrepareKeyLaws : Prop :=
  ∀ key : List Byte, key.length ≤ LIMIT →
    ∃ k, prepareKey key = some k ∧ k.length = 64 ∧
      (64 < key.length → ∃ d, sha256 key = some d ∧ k = d ++ List.replicate 32 0) ∧
      (key.length ≤ 64 → k = key ++ List.replicate (64 - key.length) 0) ∧
      (key.length = 64 → k = key)

/-- Digest and MAC are 32 bytes for every input within the limits, and there is no result beyond them
(41_sha256_stages.md section 1, 42_hmac.md section 1). -/
def Obligations.DigestAndMacAreThirtyTwoBytes : Prop :=
  (∀ m : List Byte, (m.length ≤ LIMIT → ∃ d, sha256 m = some d ∧ d.length = 32) ∧
    (LIMIT < m.length → sha256 m = none)) ∧
  (∀ key msg : List Byte, key.length ≤ LIMIT → 64 + msg.length ≤ LIMIT →
    ∃ d, hmac key msg = some d ∧ d.length = 32)

/-- Different keys may give the same MAC: a short key and the same key with zero bytes appended, a long key and its
digest (42_hmac.md section 1, 90_conflicts.md C7). -/
def Obligations.KeysWithOnePreparedKeyShareTheMac : Prop :=
  (∀ (key msg : List Byte) (n : Nat), key.length + n ≤ 64 → hmac (key ++ List.replicate n 0) msg = hmac key msg) ∧
  (∀ key msg d : List Byte, 64 < key.length → sha256 key = some d → hmac d msg = hmac key msg)

/-! ## Host-side functions -/

/-- "∀ byte sequences b: `hexToBytes(bytesToHex(b)) == some(b)`", for either value of `HEX_UPPER_OK`; the converse holds
exactly for lower-case text (44_host_codec.md). -/
def Obligations.HexRoundTrip : Prop :=
  ∀ upperOk : Bool,
    (∀ b : List Byte, hexToBytes upperOk (bytesToHex b) = .ok b) ∧
    (∀ (t : Text) (b : List Byte), hexToBytes upperOk t = .ok b →
      (bytesToHex b = t ↔ ∀ c ∈ t, c ∈ hexAlphabet))

/-- R192: the hex characters and their values; `hexToBytes` fails exactly "on odd length or non-hex character"; otherwise
byte `i` is `16·v(t[2i]) + v(t[2i+1])`. -/
def Obligations.HexToBytesLaws : Prop :=
  ∀ (upperOk : Bool) (t : Text),
    (∀ c, hexValue upperOk c ≠ none ↔ c ∈ hexAlphabet ∨ (upperOk = true ∧ c ∈ ['A', 'B', 'C', 'D', 'E', 'F'])) ∧
    (∀ n, n < 16 → hexValue upperOk (['0', '1', '2', '3', '4', '5', '6', '7', '8', '9', 'a', 'b', 'c', 'd', 'e',
      'f'].getD n ' ') = some (BitVec.ofNat 4 n)) ∧
    (∀ n, n < 6 → hexValue true (['A', 'B', 'C', 'D', 'E', 'F'].getD n ' ') = some (BitVec.ofNat 4 (10 + n))) ∧
    (hexToBytes upperOk t = .error .invalidHex ↔ t.length % 2 = 1 ∨ ∃ c ∈ t, hexValue upperOk c = none) ∧
    (∀ b, hexToBytes upperOk t = .ok b →
      2 * b.length = t.length ∧
      ∀ i, i < b.length → ∃ x y, hexValue upperOk (t.getD (2 * i) '0') = some x ∧
        hexValue upperOk (t.getD (2 * i + 1) '0') = some y ∧
        (b.getD i 0).toNat = 16 * x.toNat + y.toNat)

/-- The assembler reads back the text of every command (30_encoding.md section 5). The text form with two hex digits
and one space is the model's choice (log 13). -/
def Obligations.AssemblerReadsItsOwnText : Prop :=
  ∀ i : Instr, i.wellFormed = true → assembleLine (asmText i) = some (some i)

/-! ## The functions down to bits, words and tables -/

/-- The sigma functions bit by bit. The amounts of `BSIG0` and `BSIG1` are the spec's supply from general knowledge
(40_bytecodec_wordops.md section 2; log 10); those of `SSIG0` and `SSIG1` are the source's, with zeros entering by the
shift. -/
def Obligations.SigmaFunctionsBitByBit : Prop :=
  ∀ (x : Word) (i : Nat), i < 32 →
    let bit (n : Nat) : Bool := x.getLsbD ((i + n) % 32)
    let shifted (n : Nat) : Bool := if i + n < 32 then x.getLsbD (i + n) else false
    (bsig0 x).getLsbD i = ((bit 2 ^^ bit 13) ^^ bit 22) ∧
    (bsig1 x).getLsbD i = ((bit 6 ^^ bit 11) ^^ bit 25) ∧
    (ssig0 x).getLsbD i = ((bit 7 ^^ bit 18) ^^ shifted 3) ∧
    (ssig1 x).getLsbD i = ((bit 17 ^^ bit 19) ^^ shifted 10)

/-- `IV` and `K` are the first 32 bits of the fractional parts of the square roots of the first 8 primes and of the cube
roots of the first 64. The spec supplies both tables, and this definition of them, from general knowledge
(40_bytecodec_wordops.md section 4; log 10). -/
def Obligations.ConstantTablesAreTheRootsOfPrimes : Prop :=
  let primes : List Nat :=
    [2, 3, 5, 7, 11, 13, 17, 19, 23, 29, 31, 37, 41, 43, 47, 53, 59, 61, 67, 71, 73, 79, 83, 89, 97, 101, 103, 107, 109,
      113, 127, 131, 137, 139, 149, 151, 157, 163, 167, 173, 179, 181, 191, 193, 197, 199, 211, 223, 227, 229, 233, 239,
      241, 251, 257, 263, 269, 271, 277, 281, 283, 293, 307, 311]
  primes = (List.range 312).filter (fun p => decide (2 ≤ p) && (List.range p).all fun d => decide (d < 2 ∨ p % d ≠ 0)) ∧
  (∀ i : Fin 8, ∃ n : Fin 5,
    (n.val * 2 ^ 32 + IV[i].toNat) ^ 2 ≤ primes.getD i.val 0 * 2 ^ 64 ∧
    primes.getD i.val 0 * 2 ^ 64 < (n.val * 2 ^ 32 + IV[i].toNat + 1) ^ 2) ∧
  (∀ i : Fin 64, ∃ n : Fin 7,
    (n.val * 2 ^ 32 + K[i].toNat) ^ 3 ≤ primes.getD i.val 0 * 2 ^ 96 ∧
    primes.getD i.val 0 * 2 ^ 96 < (n.val * 2 ^ 32 + K[i].toNat + 1) ^ 3)

/-- R118, R119: `sha256` folds `compress` over the 64-byte blocks of the padded message, from `IV`, and serialises the
last hash state big-endian; there is no result beyond `LIMIT`. -/
def Obligations.Sha256FoldsCompressOverTheBlocks : Prop :=
  (∀ S : Vector Word 8, finalize S = S.toList.flatMap fun w =>
    [w.extractLsb' 24 8, w.extractLsb' 16 8, w.extractLsb' 8 8, w.extractLsb' 0 8]) ∧
  ∀ m : List Byte,
    (LIMIT < m.length → sha256 m = none) ∧
    (m.length ≤ LIMIT →
      ∃ (p d : List Byte) (S : Nat → Vector Word 8), pad m = some p ∧ S 0 = IV ∧
        (∀ j, j < p.length / 64 →
          ∃ b : Block, (∀ i : Fin 64, b[i] = p.getD (64 * j + i.val) 0) ∧ S (j + 1) = compress (S j) b) ∧
        d = finalize (S (p.length / 64)) ∧ sha256 m = some d ∧ d.length = 32)

/-- R142, R143: the masked keys, byte by byte, and the two passes of `hmac`, whose lengths are the rule's. -/
def Obligations.HmacIsTheTwoPassConstruction : Prop :=
  ipad64 = List.replicate 64 0x36 ∧ opad64 = List.replicate 64 0x5C ∧
  (∀ k : List Byte, k.length = 64 →
    xorBytes k ipad64 = some (k.map (· ^^^ 0x36)) ∧ xorBytes k opad64 = some (k.map (· ^^^ 0x5C))) ∧
  ∀ key msg : List Byte, key.length ≤ LIMIT → 64 + msg.length ≤ LIMIT →
    ∃ k inner mac, prepareKey key = some k ∧ k.length = 64 ∧
      sha256 (k.map (· ^^^ 0x36) ++ msg) = some inner ∧ inner.length = 32 ∧
      sha256 (k.map (· ^^^ 0x5C) ++ inner) = some mac ∧ hmac key msg = some mac ∧ mac.length = 32

/-- "returns 0 on success and a negative integer when an input pointer is null" (44_host_codec.md, C entry points): for the
entry points as functions and for a driver on the engine. Which negative value, a null pointer with length 0, a null
output buffer and inputs beyond the limits are free values (log 16); nothing here depends on them. That a driver leaves the
engine alone on a null input is the model's choice (log 16). -/
def Obligations.CEntryPointsReturnZeroOrNegative : Prop :=
  (∀ (c : CCall) (n : Nat), 0 < n →
    (∃ o, c = .sha256 (.null n) o ∨ ∃ x, c = .hmacSha256 (.null n) x o ∨ c = .hmacSha256 x (.null n) o) →
    (cEntry c).status < 0 ∧ ∀ s : State, cDriver c s = some (cEntry c, s)) ∧
  (∀ m : List Byte, m.length ≤ LIMIT →
    ∃ d, sha256 m = some d ∧ cEntry (.sha256 (.bytes m) false) = ⟨0, some d⟩) ∧
  (∀ k m : List Byte, k.length ≤ LIMIT → 64 + m.length ≤ LIMIT →
    ∃ d, hmac k m = some d ∧ cEntry (.hmacSha256 (.bytes k) (.bytes m) false) = ⟨0, some d⟩) ∧
  (∀ (s : State) (m : List Byte), s.Inv → m.length ≤ s.params.msgMax.val →
    ∃ t, cDriver (.sha256 (.bytes m) false) s = some (cEntry (.sha256 (.bytes m) false), t)) ∧
  (∀ (s : State) (k m : List Byte), s.Inv → k.length ≤ s.params.keyMax.val → m.length ≤ s.params.msgMax.val →
    ∃ t, cDriver (.hmacSha256 (.bytes k) (.bytes m) false) s =
      some (cEntry (.hmacSha256 (.bytes k) (.bytes m) false), t)) ∧
  (∀ e : Status, e ≠ .ok → 0 < e.code.toNat)
end

