-- ==== Sys2Proof/Laws/CAbi.lean ====
section
/-! SUPPORT. The status convention of the C entry points, said once per function (44_host_codec.md R201). -/

namespace Sys2Proof.Machine

@[simp] theorem cArgument_bytes (c : CCall) (b : List Byte) : cArgument c (.bytes b) = .ok b := rfl

@[simp] theorem cArgument_null_succ (c : CCall) (n : Nat) : cArgument c (.null (n + 1)) = .error .nullInput := rfl

/-- The only failure of an input is a null pointer. -/
theorem cArgument_cases (c : CCall) (x : CInput) :
    (∃ b, cArgument c x = .ok b) ∨ ((∃ n, x = .null n) ∧ cArgument c x = .error .nullInput) := by
  match x with
  | .bytes b => exact Or.inl ⟨b, rfl⟩
  | .null (n + 1) => exact Or.inr ⟨⟨_, rfl⟩, rfl⟩
  | .null 0 =>
    cases h : cNullEmptyAccepted c
    · exact Or.inr ⟨⟨_, rfl⟩, by simp [cArgument, h]⟩
    · exact Or.inl ⟨[], by simp [cArgument, h]⟩

/-- The status is 0 on success. -/
@[simp] theorem cReturn_ok (c : CCall) (d : List Byte) : cReturn c (.ok d) = ⟨0, some d⟩ := rfl

/-- The status is negative on a null input, whatever the free value. -/
theorem cReturn_nullInput_neg (c : CCall) : (cReturn c (.error .nullInput)).status < 0 := by
  simp only [cReturn]
  omega

/-- A call whose arguments fail is answered from the failure alone, and a driver leaves the engine. -/
theorem cEntry_of_error {c : CCall} {e : HostError} (h : cArguments c = .error e) : cEntry c = cReturn c (.error e) := by
  rw [cEntry, h]

theorem cDriver_of_error {c : CCall} {e : HostError} (s : State) (h : cArguments c = .error e) :
    cDriver c s = some (cReturn c (.error e), s) := by
  rw [cDriver, h]

end Sys2Proof.Machine
end

