-- ==== Sys2Proof/Laws/Decode.lean ====
section
/-! SUPPORT. The fields of a command word and the word of two fields. -/

namespace Sys2Proof

@[simp] theorem op_c16 (op arg : Byte) : CmdWord.op (c16 op arg) = op := by
  simp only [CmdWord.op, c16]
  ext i hi
  simp only [BitVec.getElem_extractLsb', BitVec.getLsbD_append]
  grind

@[simp] theorem arg_c16 (op arg : Byte) : CmdWord.arg (c16 op arg) = arg := by
  simp only [CmdWord.arg, c16]
  ext i hi
  simp only [BitVec.getElem_extractLsb', BitVec.getLsbD_append]
  grind

/-- A word is its two fields. -/
theorem c16_op_arg (c : CmdWord) : c16 (CmdWord.op c) (CmdWord.arg c) = c := by
  simp only [CmdWord.op, CmdWord.arg, c16]
  ext i hi
  simp
  grind

end Sys2Proof
end

