-- ==== Sys2Proof/Laws/Memory.lean ====
section
/-! SUPPORT. Laws of the bytes of one space: reading after writing, canonical form, extensionality. -/

namespace Sys2Proof.Machine

@[simp] theorem Memory.read_nil (a : Nat) : Memory.read [] a = 0 := rfl

theorem Memory.read_cons (c : Host.Cell) (m : Memory) (a : Nat) :
    Memory.read (c :: m) a = if c.1 = a then c.2 else Memory.read m a := rfl

theorem Memory.read_eq_zero_of_not_listed {m : Memory} {a : Nat} (h : ∀ c ∈ m, c.1 ≠ a) : Memory.read m a = 0 := by
  induction m with
  | nil => rfl
  | cons c m ih =>
    rw [Memory.read_cons, if_neg (h c (by simp))]
    exact ih fun d hd => h d (by simp [hd])

theorem Memory.read_append_of_not_listed {m n : Memory} {a : Nat} (h : ∀ c ∈ m, c.1 ≠ a) :
    Memory.read (m ++ n) a = Memory.read n a := by
  induction m with
  | nil => rfl
  | cons c m ih =>
    rw [List.cons_append, Memory.read_cons, if_neg (h c (by simp))]
    exact ih fun d hd => h d (by simp [hd])

theorem Memory.read_append_of_not_listed_right {m n : Memory} {a : Nat} (h : ∀ c ∈ n, c.1 ≠ a) :
    Memory.read (m ++ n) a = Memory.read m a := by
  induction m with
  | nil => exact Memory.read_eq_zero_of_not_listed h
  | cons c m ih => simp only [List.cons_append, Memory.read_cons, ih]

theorem Memory.read_filter {m : Memory} {a : Nat} {p : Nat → Bool} (h : p a = true) :
    Memory.read (m.filter fun c => p c.1) a = Memory.read m a := by
  induction m with
  | nil => rfl
  | cons c m ih =>
    by_cases hc : c.1 = a
    · simp [Memory.read_cons, hc, h]
    · by_cases hp : p c.1 = true <;> simp [Memory.read_cons, hc, hp, ih]

theorem cellsFrom_listed {a : Nat} {bs : List Byte} :
    ∀ c ∈ cellsFrom a bs, a ≤ c.1 ∧ c.1 < a + bs.length ∧ c.2 ≠ 0 := by
  induction bs generalizing a with
  | nil => intro c hc; cases hc
  | cons b bs ih =>
    intro c hc
    simp only [cellsFrom] at hc
    split at hc
    · have := ih c hc
      simp only [List.length_cons]
      exact ⟨by omega, by omega, this.2.2⟩
    · rename_i hb
      rcases List.mem_cons.mp hc with rfl | hc
      · exact ⟨Nat.le_refl _, by simp, hb⟩
      · have := ih c hc
        simp only [List.length_cons]
        exact ⟨by omega, by omega, this.2.2⟩

theorem read_cellsFrom {a x : Nat} {bs : List Byte} (h : a ≤ x) :
    Memory.read (cellsFrom a bs) x = bs.getD (x - a) 0 := by
  induction bs generalizing a with
  | nil => rfl
  | cons b bs ih =>
    have hne : ∀ c ∈ cellsFrom (a + 1) bs, c.1 ≠ a := fun c hc => by
      have := (cellsFrom_listed c hc).1
      omega
    rcases Nat.eq_or_lt_of_le h with rfl | hlt
    · simp only [cellsFrom, Nat.sub_self, List.getD_cons_zero]
      split
      · rename_i hb
        rw [Memory.read_eq_zero_of_not_listed hne, hb]
      · simp [Memory.read_cons]
    · have hx : x - a = (x - (a + 1)) + 1 := by omega
      rw [hx, List.getD_cons_succ, ← ih (by omega)]
      simp only [cellsFrom]
      split
      · rfl
      · rw [Memory.read_cons, if_neg (by simp only; omega)]

theorem cellsFrom_sorted (a : Nat) (bs : List Byte) : (cellsFrom a bs).Pairwise fun c d => c.1 < d.1 := by
  induction bs generalizing a with
  | nil => exact List.Pairwise.nil
  | cons b bs ih =>
    simp only [cellsFrom]
    split
    · exact ih (a + 1)
    · refine List.Pairwise.cons (fun c hc => ?_) (ih (a + 1))
      have := (cellsFrom_listed c hc).1
      simp only
      omega

/-- What a write can do to a read: the written byte inside the written range, the old byte outside. -/
theorem Memory.read_write (m : Memory) (a : Nat) (bs : List Byte) (x : Nat) :
    Memory.read (Memory.write m a bs) x =
      if a ≤ x ∧ x < a + bs.length then bs.getD (x - a) 0 else Memory.read m x := by
  have hlow : ∀ c ∈ m.filter (fun c => decide (c.1 < a)), c.1 < a := fun c hc => by
    simpa using (List.mem_filter.mp hc).2
  have hhigh : ∀ c ∈ m.filter (fun c => decide (a + bs.length ≤ c.1)), a + bs.length ≤ c.1 := fun c hc => by
    simpa using (List.mem_filter.mp hc).2
  have hmid := fun c hc => cellsFrom_listed (a := a) (bs := bs) c hc
  unfold Memory.write
  rcases Nat.lt_or_ge x a with hx | hx
  · rw [if_neg (by omega), List.append_assoc, Memory.read_append_of_not_listed_right]
    · exact Memory.read_filter (p := fun n => decide (n < a)) (by simpa using hx)
    · intro c hc
      rcases List.mem_append.mp hc with h | h
      · have := hmid c h; omega
      · have := hhigh c h; omega
  · rw [List.append_assoc, Memory.read_append_of_not_listed (fun c hc => by have := hlow c hc; omega)]
    rcases Nat.lt_or_ge x (a + bs.length) with hx' | hx'
    · rw [if_pos ⟨hx, hx'⟩, Memory.read_append_of_not_listed_right (fun c hc => by have := hhigh c hc; omega)]
      exact read_cellsFrom hx
    · rw [if_neg (by omega), Memory.read_append_of_not_listed (fun c hc => by have := hmid c hc; omega)]
      exact Memory.read_filter (p := fun n => decide (a + bs.length ≤ n)) (by simpa using hx')

/-- Every write keeps the canonical form. -/
theorem Memory.write_wf {m : Memory} (h : Memory.wf m) (a : Nat) (bs : List Byte) :
    Memory.wf (Memory.write m a bs) := by
  obtain ⟨hs, hz⟩ := h
  refine ⟨?_, ?_⟩
  · unfold Memory.write
    refine List.pairwise_append.mpr ⟨List.pairwise_append.mpr ⟨hs.filter _, cellsFrom_sorted a bs, ?_⟩, hs.filter _, ?_⟩
    · intro c hc d hd
      have := (cellsFrom_listed d hd).1
      have : c.1 < a := by simpa using (List.mem_filter.mp hc).2
      omega
    · intro c hc d hd
      have hd' : a + bs.length ≤ d.1 := by simpa using (List.mem_filter.mp hd).2
      rcases List.mem_append.mp hc with h | h
      · have : c.1 < a := by simpa using (List.mem_filter.mp h).2
        omega
      · have := (cellsFrom_listed c h).2.1
        omega
  · intro c hc
    simp only [Memory.write, List.mem_append] at hc
    rcases hc with (h | h) | h
    · exact hz c (List.mem_filter.mp h).1
    · exact (cellsFrom_listed c h).2.2
    · exact hz c (List.mem_filter.mp h).1

/-- A write inside a space lists no address beyond it. -/
theorem Memory.write_below {m : Memory} {n a : Nat} {bs : List Byte} (h : Memory.below m n) (hw : a + bs.length ≤ n) :
    Memory.below (Memory.write m a bs) n := by
  intro c hc
  simp only [Memory.write, List.mem_append] at hc
  rcases hc with (hc | hc) | hc
  · exact h c (List.mem_filter.mp hc).1
  · have := (cellsFrom_listed c hc).2.1
    omega
  · exact h c (List.mem_filter.mp hc).1

@[simp] theorem Memory.bytes_length (m : Memory) (a n : Nat) : (Memory.bytes m a n).length = n := by
  simp [Memory.bytes]

theorem Memory.bytes_getElem (m : Memory) (a n i : Nat) (h : i < (Memory.bytes m a n).length) :
    (Memory.bytes m a n)[i] = Memory.read m (a + i) := by
  simp [Memory.bytes]

theorem Memory.bytes_getD (m : Memory) (a n i : Nat) (h : i < n) :
    (Memory.bytes m a n).getD i 0 = Memory.read m (a + i) := by
  simp [Memory.bytes, List.getD_eq_getElem?_getD, h]

theorem Memory.bytes_congr {m m' : Memory} {a n : Nat} (h : ∀ i < n, Memory.read m (a + i) = Memory.read m' (a + i)) :
    Memory.bytes m a n = Memory.bytes m' a n := by
  refine List.map_congr_left fun i hi => h i (by simpa using hi)

theorem Memory.bytes_append (m : Memory) (a n k : Nat) :
    Memory.bytes m a (n + k) = Memory.bytes m a n ++ Memory.bytes m (a + n) k := by
  simp [Memory.bytes, List.range_add, Nat.add_assoc]

/-- The bytes just written read back. -/
theorem Memory.bytes_write_same (m : Memory) (a : Nat) (bs : List Byte) :
    Memory.bytes (Memory.write m a bs) a bs.length = bs := by
  refine List.ext_getElem (by simp) fun i h₁ h₂ => ?_
  rw [Memory.bytes_getElem, Memory.read_write, if_pos ⟨by omega, by omega⟩]
  simp [h₂]

/-- Bytes outside the written range read as before. -/
theorem Memory.bytes_write_other (m : Memory) {a b n : Nat} {bs : List Byte}
    (h : b + n ≤ a ∨ a + bs.length ≤ b) : Memory.bytes (Memory.write m a bs) b n = Memory.bytes m b n := by
  refine Memory.bytes_congr fun i hi => ?_
  rw [Memory.read_write, if_neg (by omega)]

theorem Memory.read_of_mem {m : Memory} (h : m.Pairwise fun c d => c.1 < d.1) {c : Host.Cell} (hc : c ∈ m) :
    Memory.read m c.1 = c.2 := by
  induction m with
  | nil => cases hc
  | cons d m ih =>
    rw [List.pairwise_cons] at h
    rcases List.mem_cons.mp hc with rfl | hc
    · simp [Memory.read_cons]
    · rw [Memory.read_cons, if_neg (Nat.ne_of_lt (h.1 c hc))]
      exact ih h.2 hc

/-- Canonical memories that read alike are the same data. -/
theorem Memory.ext_of_wf {m n : Memory} (hm : Memory.wf m) (hn : Memory.wf n)
    (h : ∀ a, Memory.read m a = Memory.read n a) : m = n := by
  have key : ∀ {m n : Memory}, Memory.wf m → Memory.wf n → (∀ a, Memory.read m a = Memory.read n a) → m ⊆ n := by
    intro m n hm hn h c hc
    by_contra hcn
    have hr := (h c.1).symm.trans (Memory.read_of_mem hm.1 hc)
    by_cases hl : ∃ d ∈ n, d.1 = c.1
    · obtain ⟨d, hd, hdc⟩ := hl
      have : d.2 = c.2 := by rw [← Memory.read_of_mem hn.1 hd, hdc, hr]
      exact hcn (by rwa [← Prod.ext hdc this])
    · rw [Memory.read_eq_zero_of_not_listed (fun d hd hdc => hl ⟨d, hd, hdc⟩)] at hr
      exact hm.2 c hc hr.symm
  have anti : ∀ a b : Host.Cell, a.1 < b.1 → b.1 < a.1 → a = b := fun a b h₁ h₂ => by omega
  have nd : ∀ {m : Memory}, Memory.wf m → m.Nodup := fun hm =>
    hm.1.imp fun {a b} h => by rintro rfl; exact Nat.lt_irrefl _ h
  have hp : m.Perm n := (List.perm_ext_iff_of_nodup (nd hm) (nd hn)).mpr fun c =>
    ⟨fun hc => key hm hn h hc, fun hc => key hn hm (fun a => (h a).symm) hc⟩
  exact hp.eq_of_pairwise (fun a b _ _ h₁ h₂ => anti a b h₁ h₂) hm.1 hn.1

end Sys2Proof.Machine
end

