-- ==== Sys2Proof/Laws/State.lean ====
section
/-! SUPPORT. One lemma per field per update of the state, so that no proof unfolds an update. -/

namespace Sys2Proof.Machine

/-! ## Replacing the bytes of a space -/

@[simp] theorem State.setSpace_params (s : State) (sp : Space) (m : Memory) : (s.setSpace sp m).params = s.params := by
  cases sp <;> rfl

@[simp] theorem State.setSpace_h (s : State) (sp : Space) (m : Memory) : (s.setSpace sp m).h = s.h := by
  cases sp <;> rfl

@[simp] theorem State.setSpace_v (s : State) (sp : Space) (m : Memory) : (s.setSpace sp m).v = s.v := by
  cases sp <;> rfl

@[simp] theorem State.setSpace_w (s : State) (sp : Space) (m : Memory) : (s.setSpace sp m).w = s.w := by
  cases sp <;> rfl

@[simp] theorem State.setSpace_t (s : State) (sp : Space) (m : Memory) : (s.setSpace sp m).t = s.t := by
  cases sp <;> rfl

@[simp] theorem State.setSpace_blk (s : State) (sp : Space) (m : Memory) : (s.setSpace sp m).blk = s.blk := by
  cases sp <;> rfl

@[simp] theorem State.setSpace_nblk (s : State) (sp : Space) (m : Memory) : (s.setSpace sp m).nblk = s.nblk := by
  cases sp <;> rfl

@[simp] theorem State.setSpace_phase (s : State) (sp : Space) (m : Memory) : (s.setSpace sp m).phase = s.phase := by
  cases sp <;> rfl

@[simp] theorem State.setSpace_err (s : State) (sp : Space) (m : Memory) : (s.setSpace sp m).err = s.err := by
  cases sp <;> rfl

@[simp] theorem State.setSpace_keyLen (s : State) (sp : Space) (m : Memory) : (s.setSpace sp m).keyLen = s.keyLen := by
  cases sp <;> rfl

@[simp] theorem State.setSpace_msgLen (s : State) (sp : Space) (m : Memory) : (s.setSpace sp m).msgLen = s.msgLen := by
  cases sp <;> rfl

@[simp] theorem State.setSpace_workLen (s : State) (sp : Space) (m : Memory) : (s.setSpace sp m).workLen = s.workLen := by
  cases sp <;> rfl

@[simp] theorem State.setSpace_resp (s : State) (sp : Space) (m : Memory) : (s.setSpace sp m).resp = s.resp := by
  cases sp <;> rfl

@[simp] theorem State.setSpace_host (s : State) (sp : Space) (m : Memory) : (s.setSpace sp m).host = s.host := by
  cases sp <;> rfl

theorem State.space_setSpace (s : State) (sp sp' : Space) (m : Memory) :
    (s.setSpace sp m).space sp' = if sp' = sp then m else s.space sp' := by
  cases sp <;> cases sp' <;> rfl

@[simp] theorem State.space_setSpace_same (s : State) (sp : Space) (m : Memory) : (s.setSpace sp m).space sp = m := by
  rw [State.space_setSpace, if_pos rfl]

theorem State.space_setSpace_other (s : State) {sp sp' : Space} (m : Memory) (h : sp' ≠ sp) :
    (s.setSpace sp m).space sp' = s.space sp' := by
  rw [State.space_setSpace, if_neg h]

/-! ## The spaces by name: the normal form is the named field -/

@[simp] theorem State.space_keybuf (s : State) : s.space .keybuf = s.keybuf := rfl

@[simp] theorem State.setSpace_keybuf_eq (s : State) (m : Memory) : s.setSpace .keybuf m = { s with keybuf := m } := rfl

@[simp] theorem State.space_msgbuf (s : State) : s.space .msgbuf = s.msgbuf := rfl

@[simp] theorem State.setSpace_msgbuf_eq (s : State) (m : Memory) : s.setSpace .msgbuf m = { s with msgbuf := m } := rfl

@[simp] theorem State.space_work (s : State) : s.space .work = s.work := rfl

@[simp] theorem State.setSpace_work_eq (s : State) (m : Memory) : s.setSpace .work m = { s with work := m } := rfl

@[simp] theorem State.space_k0 (s : State) : s.space .k0 = s.k0 := rfl

@[simp] theorem State.setSpace_k0_eq (s : State) (m : Memory) : s.setSpace .k0 m = { s with k0 := m } := rfl

@[simp] theorem State.space_inner (s : State) : s.space .inner = s.inner := rfl

@[simp] theorem State.setSpace_inner_eq (s : State) (m : Memory) : s.setSpace .inner m = { s with inner := m } := rfl

@[simp] theorem State.space_digest (s : State) : s.space .digest = s.digest := rfl

@[simp] theorem State.setSpace_digest_eq (s : State) (m : Memory) : s.setSpace .digest m = { s with digest := m } := rfl

/-! ## Reset of the engine -/

@[simp] theorem resetEngine_params (s : State) : (resetEngine s).params = s.params := rfl

@[simp] theorem resetEngine_h (s : State) : (resetEngine s).h = IV := rfl

@[simp] theorem resetEngine_v (s : State) : (resetEngine s).v = ⟨0, 0, 0, 0, 0, 0, 0, 0⟩ := rfl

@[simp] theorem resetEngine_w (s : State) : (resetEngine s).w = Vector.replicate 64 0 := rfl

@[simp] theorem resetEngine_t (s : State) : (resetEngine s).t = 0 := rfl

@[simp] theorem resetEngine_blk (s : State) : (resetEngine s).blk = 0 := rfl

@[simp] theorem resetEngine_nblk (s : State) : (resetEngine s).nblk = 0 := rfl

@[simp] theorem resetEngine_phase (s : State) : (resetEngine s).phase = .init := rfl

@[simp] theorem resetEngine_err (s : State) : (resetEngine s).err = .ok := rfl

@[simp] theorem resetEngine_keybuf (s : State) : (resetEngine s).keybuf = [] := rfl

@[simp] theorem resetEngine_keyLen (s : State) : (resetEngine s).keyLen = 0 := rfl

@[simp] theorem resetEngine_msgbuf (s : State) : (resetEngine s).msgbuf = [] := rfl

@[simp] theorem resetEngine_msgLen (s : State) : (resetEngine s).msgLen = 0 := rfl

@[simp] theorem resetEngine_work (s : State) : (resetEngine s).work = [] := rfl

@[simp] theorem resetEngine_workLen (s : State) : (resetEngine s).workLen = 0 := rfl

@[simp] theorem resetEngine_k0 (s : State) : (resetEngine s).k0 = [] := rfl

@[simp] theorem resetEngine_inner (s : State) : (resetEngine s).inner = [] := rfl

@[simp] theorem resetEngine_digest (s : State) : (resetEngine s).digest = [] := rfl

@[simp] theorem resetEngine_resp (s : State) : (resetEngine s).resp = none := rfl

@[simp] theorem resetEngine_host (s : State) : (resetEngine s).host = s.host := rfl

@[simp] theorem resetEngine_space (s : State) (sp : Space) : (resetEngine s).space sp = [] := by
  cases sp <;> rfl

@[simp] theorem State.resetOf_space (p : Params) (sp : Space) : (State.resetOf p).space sp = [] := by
  cases sp <;> rfl

/-! ## One byte and the content of a space -/

theorem State.content_length (s : State) (sp : Space) (n : Nat) : (s.content sp n).length = n :=
  Memory.bytes_length _ _ _

@[simp] theorem State.keyBytes_length (s : State) : s.keyBytes.length = s.keyLen := Memory.bytes_length _ _ _

@[simp] theorem State.msgBytes_length (s : State) : s.msgBytes.length = s.msgLen := Memory.bytes_length _ _ _

@[simp] theorem State.workBytes_length (s : State) : s.workBytes.length = s.workLen := Memory.bytes_length _ _ _

@[simp] theorem State.digestBytes_length (s : State) : s.digestBytes.length = 32 := Memory.bytes_length _ _ _

/-- The content of a space is its bytes, one by one. -/
theorem State.content_getD (s : State) (sp : Space) {n i : Nat} (h : i < n) :
    (s.content sp n).getD i 0 = s.byteAt sp i := by
  rw [State.content, Memory.bytes_getD _ _ _ _ h, Nat.zero_add]
  rfl

end Sys2Proof.Machine
end

