-- ==== Sys2Proof/Laws/Ops.lean ====
section
/-! SUPPORT. What each shared operation of Ops.lean can do, said once. -/

namespace Sys2Proof.Machine

/-! ## Sequencing -/

@[simp] theorem andThen_next (s : State) (f : State → Result) : andThen (.next s) f = f s := rfl

@[simp] theorem andThen_fault (x : Fault) (f : State → Result) : andThen (.fault x) f = .fault x := rfl

@[simp] theorem andThen_refused (x : Refusal) (f : State → Result) : andThen (.refused x) f = .refused x := rfl

/-- If a sequence answers next, both its parts did. -/
theorem andThen_eq_next {r : Result} {f : State → Result} {t : State} (h : andThen r f = .next t) :
    ∃ s, r = .next s ∧ f s = .next t := by
  cases r with
  | next s => exact ⟨s, rfl, h⟩
  | fault x => cases h
  | refused x => cases h

theorem andThen_assoc (r : Result) (f g : State → Result) :
    andThen (andThen r f) g = andThen r fun s => andThen (f s) g := by
  cases r <;> rfl

/-! ## Reading and writing a space -/

theorem memRead_of_le {sp : Space} {a n : Nat} {s : State} (use : List Byte → Result)
    (h : a + n ≤ sp.size s.params) : memRead sp a n s use = use (Memory.bytes (s.space sp) a n) := if_pos h

/-- If a read answers next, the location exists and its user answered. -/
theorem memRead_eq_next {sp : Space} {a n : Nat} {s t : State} {use : List Byte → Result}
    (h : memRead sp a n s use = .next t) :
    a + n ≤ sp.size s.params ∧ use (Memory.bytes (s.space sp) a n) = .next t := by
  unfold memRead at h
  split at h
  · exact ⟨‹_›, h⟩
  · cases h

theorem memWrite_of_le {sp : Space} {a : Nat} {bs : List Byte} {s : State} (h : a + bs.length ≤ sp.size s.params) :
    memWrite sp a bs s = .next (s.setSpace sp (Memory.write (s.space sp) a bs)) := if_pos h

/-- If a write answers next, the location exists and only that space changed. -/
theorem memWrite_eq_next {sp : Space} {a : Nat} {bs : List Byte} {s t : State} (h : memWrite sp a bs s = .next t) :
    a + bs.length ≤ sp.size s.params ∧ t = s.setSpace sp (Memory.write (s.space sp) a bs) := by
  unfold memWrite at h
  split at h
  · exact ⟨‹_›, (Host.Outcome.next.inj h).symm⟩
  · cases h

/-- The one way a write stops. -/
theorem memWrite_of_gt {sp : Space} {a : Nat} {bs : List Byte} {s : State}
    (h : sp.size s.params < a + bs.length) : memWrite sp a bs s = .fault (.noSuchAddress sp) :=
  if_neg (by omega)

/-! ## Responding and raising -/

/-- A response changes the response alone. -/
theorem respond_eq_next {d : Byte} {s t : State} (h : respond d s = .next t) :
    t = { s with resp := some ⟨.ok, d⟩ } := (Host.Outcome.next.inj h).symm

/-- An error changes `ERR` and the response alone. -/
theorem raise_eq_next {e : Status} {s t : State} (h : raise e s = .next t) :
    t = { s with err := e, resp := some ⟨e, 0⟩ } := (Host.Outcome.next.inj h).symm

/-! ## Capacities -/

theorem seqMax_le_limit (p : Params) : seqMax p ≤ LIMIT := by
  have h₁ := p.keyMax.isLt
  have h₂ := p.msgMax.isLt
  simp only [seqMax, LIMIT] at *
  omega

theorem keyMax_le_seqMax (p : Params) : p.keyMax.val ≤ seqMax p := by
  simp only [seqMax]
  omega

theorem msgMax_le_seqMax (p : Params) : 64 + p.msgMax.val ≤ seqMax p := by
  simp only [seqMax]
  omega

theorem outer_le_seqMax (p : Params) : 96 ≤ seqMax p := by
  simp only [seqMax]
  omega

theorem seqMax_add_nine_le_workMax (p : Params) : seqMax p + 9 ≤ workMax p := by
  simp only [workMax]
  omega

theorem seqMax_le_workMax (p : Params) : seqMax p ≤ workMax p := by
  have := seqMax_add_nine_le_workMax p
  omega

end Sys2Proof.Machine
end

