-- ==== Sys2Proof/Laws/Stages.lean ====
section
/-! SUPPORT. Laws of the pure functions that the micro-operations use: lengths of padding, schedule and serialisation. -/

namespace Sys2Proof.Machine

@[simp] theorem be32_length (w : Word) : (be32 w).length = 4 := rfl

@[simp] theorem wordsToBytes_length (ws : List Word) : (wordsToBytes ws).length = 4 * ws.length := by
  induction ws with
  | nil => rfl
  | cons w ws ih =>
    simp only [wordsToBytes, List.flatMap_cons, List.length_append, be32_length, List.length_cons] at *
    omega

@[simp] theorem finalize_length (s : Vector Word 8) : (finalize s).length = 32 := by simp [finalize]

@[simp] theorem ipad64_length : ipad64.length = 64 := by simp [ipad64]

@[simp] theorem opad64_length : opad64.length = 64 := by simp [opad64]

theorem padZeros_lt (n : Nat) : padZeros n < 64 := by
  simp only [padZeros]
  omega

theorem padTail_length (n : Nat) : (padTail n).length = 9 + padZeros n := by
  simp [padTail]
  omega

/-- The padded length is the next multiple of 64 that leaves room for the mark and the length field. -/
theorem padded_length (n : Nat) : n + (padTail n).length = 64 * ((n + 8) / 64 + 1) := by
  rw [padTail_length]
  simp only [padZeros]
  omega

theorem padded_le_workMax {p : Params} {n : Nat} (h : n ≤ seqMax p) : n + (padTail n).length ≤ workMax p := by
  rw [padded_length]
  simp only [workMax]
  omega

theorem pad_eq_some {m p : List Byte} (h : pad m = some p) : m.length ≤ LIMIT ∧ p = m ++ padTail m.length := by
  unfold pad at h
  split at h
  · exact ⟨‹_›, (Option.some.inj h).symm⟩
  · cases h

theorem pad_of_le {m : List Byte} (h : m.length ≤ LIMIT) : pad m = some (m ++ padTail m.length) := if_pos h

theorem sha256_of_le {m : List Byte} (h : m.length ≤ LIMIT) :
    sha256 m = some (finalize (hashBlocks (m ++ padTail m.length) ((m ++ padTail m.length).length / 64))) := by
  rw [sha256, pad_of_le h]
  rfl

theorem sha256_length {m d : List Byte} (h : sha256 m = some d) : d.length = 32 := by
  unfold sha256 at h
  obtain ⟨p, _, rfl⟩ := Option.map_eq_some_iff.mp h
  simp

theorem xorBytes_of_length {s t : List Byte} (h : s.length = t.length) :
    xorBytes s t = some (List.zipWith (· ^^^ ·) s t) := if_pos h

theorem expand_length (n : Nat) (ws : List Word) : (expand n ws).length = ws.length + n := by
  induction n generalizing ws with
  | zero => rfl
  | succ n ih => rw [expand, ih]; simp; omega

/-- The words already there are kept by the expansion. -/
theorem expand_getD_of_lt {n i : Nat} {ws : List Word} (h : i < ws.length) : (expand n ws).getD i 0 = ws.getD i 0 := by
  induction n generalizing ws with
  | zero => rfl
  | succ n ih =>
    rw [expand, ih (by simp; omega)]
    simp [List.getD_eq_getElem?_getD, List.getElem?_append_left h]

/-- A block read from `WORK` is that block of its content. -/
theorem toBlock_bytes {m : Memory} {j n : Nat} (h : 64 * j + 64 ≤ n) :
    toBlock (Memory.bytes m (64 * j) 64) = blockAt (Memory.bytes m 0 n) j := by
  refine Vector.ext fun i hi => ?_
  simp only [blockAt, toBlock, Vector.getElem_ofFn]
  rw [Memory.bytes_getD _ _ _ _ hi, List.getD_eq_getElem?_getD, List.getElem?_take, if_pos hi, List.getElem?_drop,
    ← List.getD_eq_getElem?_getD, Memory.bytes_getD _ _ _ _ (by omega), Nat.zero_add]

end Sys2Proof.Machine
end

