-- ==== Sys2Proof/Laws/Micro.lean ====
section
/-! SUPPORT. What each micro-operation does, said once: its next state, where the capacities allow it. -/

namespace Sys2Proof.Machine

/-! ## `U_INIT` and `U_PAD` -/

theorem uInit_eq {m : List Byte} {s : State} (h : m.length ≤ workMax s.params) :
    uInit m s = .next
      { s with
        work := Memory.write s.work 0 m, workLen := m.length, h := IV, blk := 0, nblk := 0, phase := .init } := by
  rw [uInit, memWrite_of_le (by simpa [Space.size] using h)]
  rfl

/-- The content of `WORK` after `U_INIT(m)` is `m`. -/
theorem workBytes_uInit {m : List Byte} {s t : State} (h : uInit m s = .next t) : t.workBytes = m := by
  obtain ⟨u, hw, ht⟩ := andThen_eq_next h
  obtain ⟨_, rfl⟩ := memWrite_eq_next hw
  cases ht
  exact Memory.bytes_write_same _ 0 m

theorem uPad_eq {s : State} (h : s.workLen ≤ seqMax s.params) :
    uPad s = .next
      { s with
        work := Memory.write s.work s.workLen (padTail s.workLen)
        workLen := s.workLen + (padTail s.workLen).length
        nblk := (s.workLen + (padTail s.workLen).length) / 64
        blk := 0, phase := .padded } := by
  rw [uPad, if_pos (Nat.le_trans h (seqMax_le_limit _))]
  simp only
  rw [memWrite_of_le (by simpa [Space.size] using padded_le_workMax h)]
  rfl

/-- The content of `WORK` after `U_PAD` is the old content and its padding. -/
theorem workBytes_uPad {s t : State} (h : uPad s = .next t) :
    t.workBytes = s.workBytes ++ padTail s.workLen := by
  unfold uPad at h
  split at h
  · obtain ⟨u, hw, ht⟩ := andThen_eq_next h
    obtain ⟨_, rfl⟩ := memWrite_eq_next hw
    cases ht
    simp only [State.workBytes, State.content, State.space_work, State.setSpace_work_eq]
    rw [Memory.bytes_append, Memory.bytes_write_other _ (Or.inl (by omega)), Nat.zero_add,
      Memory.bytes_write_same]
  · cases h

/-! ## `U_COMPRESS` -/

/-- The working variables after the first `n` rounds (R117). -/
def roundsUpTo (w : Vector Word 64) (v : WorkVars) (n : Nat) : WorkVars :=
  ((List.finRange 64).take n).foldl (fun v t => round v K[t] w[t]) v

theorem roundsUpTo_succ (w : Vector Word 64) (v : WorkVars) {n : Nat} (h : n < 64) :
    roundsUpTo w v (n + 1) = round (roundsUpTo w v n) K[n] w[n] := by
  have : (List.finRange 64).take (n + 1) = (List.finRange 64).take n ++ [⟨n, h⟩] := by
    rw [List.take_add_one, List.getElem?_eq_getElem (by simpa using h), List.getElem_finRange]
    rfl
  rw [roundsUpTo, this, List.foldl_append]
  rfl

theorem roundsUpTo_all (w : Vector Word 64) (v : WorkVars) : roundsUpTo w v 64 = rounds w v := by
  rw [roundsUpTo, List.take_of_length_le (by simp)]
  rfl

/-- `U_ROUND × n` from round `k` on, where `a..h` are what the first `k` rounds made of `v₀`. -/
theorem uRounds_eq {n k : Nat} {s : State} {v₀ : WorkVars} (hk : k + n ≤ 64) (ht : s.t = k)
    (hv : s.v = roundsUpTo s.w v₀ k) :
    uRounds n s = .next { s with v := roundsUpTo s.w v₀ (k + n), t := k + n } := by
  induction n generalizing s k with
  | zero =>
    subst ht
    rw [uRounds, Nat.add_zero, ← hv]
  | succ n ih =>
    subst ht
    have hlt : s.t < 64 := by omega
    rw [uRounds, uRound, dif_pos hlt, andThen_next,
      ih (k := s.t + 1) (by omega) rfl (by rw [roundsUpTo_succ _ _ hlt, ← hv])]
    simp only [Nat.add_assoc, Nat.add_comm 1 n]

/-- `U_COMPRESS` on a block inside `WORK` (R122). -/
theorem uCompress_eq {s : State} (h : 64 * s.blk + 64 ≤ workMax s.params) :
    uCompress s = .next
      { s with
        w := schedule (toBlock (Memory.bytes s.work (64 * s.blk) 64))
        v := rounds (schedule (toBlock (Memory.bytes s.work (64 * s.blk) 64))) (WorkVars.ofHash s.h)
        t := 64
        h := compress s.h (toBlock (Memory.bytes s.work (64 * s.blk) 64))
        blk := s.blk + 1, phase := .compressing } := by
  rw [uCompress, uSched, memRead_of_le _ (by simpa [Space.size] using h), andThen_next, uWvinit, andThen_next,
    uRounds_eq (k := 0) (v₀ := WorkVars.ofHash s.h) (by omega) rfl rfl, andThen_next, uAddback, if_pos rfl,
    andThen_next, uNext]
  simp only [Nat.zero_add, roundsUpTo_all]
  rfl

/-- The state after `U_COMPRESS` on each of the blocks `BLK .. NBLK`, at least one, of a content whose first `BLK`
blocks are already in `H` (R124). -/
theorem uCompressAll_eq {n : Nat} {s : State} (hn : s.blk + (n + 1) = s.nblk) (hlen : 64 * s.nblk ≤ s.workLen)
    (hmax : s.workLen ≤ workMax s.params) (hh : s.h = hashBlocks s.workBytes s.blk) :
    uCompressAll (n + 1) s = .next
      { s with
        w := schedule (blockAt s.workBytes (s.nblk - 1))
        v := rounds (schedule (blockAt s.workBytes (s.nblk - 1)))
          (WorkVars.ofHash (hashBlocks s.workBytes (s.nblk - 1)))
        t := 64, h := hashBlocks s.workBytes s.nblk, blk := s.nblk, phase := .compressing } := by
  have hblock : toBlock (Memory.bytes s.work (64 * s.blk) 64) = blockAt s.workBytes s.blk :=
    toBlock_bytes (m := s.work) (by omega)
  have hstep := uCompress_eq (s := s) (by omega)
  rw [hblock, hh] at hstep
  induction n generalizing s with
  | zero =>
    rw [uCompressAll, if_pos (by omega), hstep, andThen_next, uCompressAll]
    have hb : s.nblk - 1 = s.blk := by omega
    have hb' : s.nblk = s.blk + 1 := by omega
    simp only [hb]
    rw [hb']
    rfl
  | succ n ih =>
    rw [uCompressAll, if_pos (by omega), hstep, andThen_next]
    set u : State := { s with
        w := schedule (blockAt s.workBytes s.blk)
        v := rounds (schedule (blockAt s.workBytes s.blk)) (WorkVars.ofHash (hashBlocks s.workBytes s.blk))
        t := 64
        h := compress (hashBlocks s.workBytes s.blk) (blockAt s.workBytes s.blk)
        blk := s.blk + 1, phase := .compressing } with hu
    have hblock' : toBlock (Memory.bytes u.work (64 * u.blk) 64) = blockAt u.workBytes u.blk :=
      toBlock_bytes (m := s.work) (by simp only [hu]; omega)
    have hh' : u.h = hashBlocks u.workBytes u.blk := rfl
    have hstep' := uCompress_eq (s := u) (by simp only [hu]; omega)
    rw [hblock', hh'] at hstep'
    rw [ih (s := u) (by simp only [hu]; omega) hlen hmax hh' hblock' hstep']
    rfl

/-! ## `U_FINALIZE` and `U_HASH` -/

theorem uFinalize_eq (s : State) :
    uFinalize s = .next { s with digest := Memory.write s.digest 0 (finalize s.h), phase := .finalized } := by
  rw [uFinalize, memWrite_of_le (by simp [Space.size])]
  rfl

/-- The digest after `U_FINALIZE` is the serialised hash state. -/
theorem digestBytes_uFinalize {s t : State} (h : uFinalize s = .next t) : t.digestBytes = finalize s.h := by
  rw [uFinalize_eq] at h
  cases h
  have := Memory.bytes_write_same s.digest 0 (finalize s.h)
  rwa [finalize_length] at this

/-- `U_HASH(m)` within the capacity: what it writes and, by the record update, all it leaves (R124). -/
theorem uHash_eq {m p : List Byte} {n : Nat} {s : State} (h : m.length ≤ seqMax s.params)
    (hp : p = m ++ padTail m.length) (hn : n = p.length / 64) :
    uHash m s = .next
      { s with
        work := Memory.write (Memory.write s.work 0 m) m.length (padTail m.length)
        workLen := p.length
        h := hashBlocks p n
        v := rounds (schedule (blockAt p (n - 1))) (WorkVars.ofHash (hashBlocks p (n - 1)))
        w := schedule (blockAt p (n - 1))
        t := 64, blk := n, nblk := n, phase := .finalized
        digest := Memory.write s.digest 0 (finalize (hashBlocks p n)) } := by
  have hi := uInit_eq (m := m) (s := s) (Nat.le_trans h (seqMax_le_workMax _))
  have hwi := workBytes_uInit hi
  set u : State := { s with
    work := Memory.write s.work 0 m, workLen := m.length, h := IV, blk := 0, nblk := 0, phase := .init } with hu
  have hpd := uPad_eq (s := u) h
  have hwp := workBytes_uPad hpd
  have hlen : p.length = m.length + (padTail m.length).length := by rw [hp, List.length_append]
  have h64 := padded_length m.length
  have hle : m.length + (padTail m.length).length ≤ workMax s.params := padded_le_workMax h
  rw [uHash, hi, andThen_next, hpd, andThen_next]
  set x : State := { u with
    work := Memory.write u.work u.workLen (padTail u.workLen)
    workLen := u.workLen + (padTail u.workLen).length
    nblk := (u.workLen + (padTail u.workLen).length) / 64
    blk := 0, phase := .padded } with hx
  have hxw : x.workBytes = p := by rw [hwp, hwi, hp]
  have hxn : x.nblk = n := by rw [hn, hlen]
  obtain ⟨k, hk⟩ : ∃ k, n = k + 1 := ⟨n - 1, by omega⟩
  have hall := uCompressAll_eq (n := k) (s := x) (by rw [hxn]; simp only [hx]; omega)
    (by rw [hxn]; simp only [hx, hu]; omega) hle rfl
  rw [hxw, hxn] at hall
  rw [hxn]
  conv_lhs => rw [hk]
  rw [hall, andThen_next, uFinalize_eq]
  simp only [hx, hu, hlen]

/-- The digest after `U_HASH(m)` is `sha256(m)`. -/
theorem digestBytes_uHash {m : List Byte} {s t : State} (h : m.length ≤ seqMax s.params) (ht : uHash m s = .next t) :
    sha256 m = some t.digestBytes := by
  rw [uHash_eq h rfl rfl] at ht
  cases ht
  rw [sha256_of_le (Nat.le_trans h (seqMax_le_limit _))]
  have := Memory.bytes_write_same s.digest 0
    (finalize (hashBlocks (m ++ padTail m.length) ((m ++ padTail m.length).length / 64)))
  rw [finalize_length] at this
  exact congrArg some this.symm

/-- The content of `WORK` after `U_HASH(m)` is `pad(m)`. -/
theorem workBytes_uHash {m : List Byte} {s t : State} (h : m.length ≤ seqMax s.params) (ht : uHash m s = .next t) :
    pad m = some t.workBytes := by
  rw [uHash_eq h rfl rfl] at ht
  cases ht
  rw [pad_of_le (Nat.le_trans h (seqMax_le_limit _))]
  set q := Memory.write s.work 0 m with hq
  have h₁ : Memory.bytes q 0 m.length = m := Memory.bytes_write_same _ 0 m
  have h₂ : Memory.bytes (Memory.write q m.length (padTail m.length)) 0 m.length = m := by
    rw [Memory.bytes_write_other _ (Or.inl (by omega)), h₁]
  have h₃ := Memory.bytes_write_same q m.length (padTail m.length)
  simp only [State.workBytes, State.content, State.space_work, List.length_append]
  rw [Memory.bytes_append, h₂, Nat.zero_add, h₃]

end Sys2Proof.Machine
end

