-- ==== Sys2Proof/Laws/Frames.lean ====
section
/-! SUPPORT. What the computations leave unchanged and keep canonical, from any state: if a micro-operation answers next,
these hold, with no premise on the capacities. -/

namespace Sys2Proof.Machine

/-! ## Frames -/

/-- What no micro-operation of a SHA-256 computation writes. -/
structure HashFrame (s t : State) : Prop where
  params : t.params = s.params
  err : t.err = s.err
  keybuf : t.keybuf = s.keybuf
  keyLen : t.keyLen = s.keyLen
  msgbuf : t.msgbuf = s.msgbuf
  msgLen : t.msgLen = s.msgLen
  k0 : t.k0 = s.k0
  inner : t.inner = s.inner
  resp : t.resp = s.resp
  host : t.host = s.host

/-- What the HMAC controller does not write: all of the above but `K0` and `INNER`. -/
structure MacFrame (s t : State) : Prop where
  params : t.params = s.params
  err : t.err = s.err
  keybuf : t.keybuf = s.keybuf
  keyLen : t.keyLen = s.keyLen
  msgbuf : t.msgbuf = s.msgbuf
  msgLen : t.msgLen = s.msgLen
  resp : t.resp = s.resp
  host : t.host = s.host

theorem HashFrame.refl (s : State) : HashFrame s s := ⟨rfl, rfl, rfl, rfl, rfl, rfl, rfl, rfl, rfl, rfl⟩

theorem HashFrame.trans {s t u : State} (h : HashFrame s t) (k : HashFrame t u) : HashFrame s u :=
  ⟨k.params.trans h.params, k.err.trans h.err, k.keybuf.trans h.keybuf, k.keyLen.trans h.keyLen,
    k.msgbuf.trans h.msgbuf, k.msgLen.trans h.msgLen, k.k0.trans h.k0, k.inner.trans h.inner,
    k.resp.trans h.resp, k.host.trans h.host⟩

theorem MacFrame.trans {s t u : State} (h : MacFrame s t) (k : MacFrame t u) : MacFrame s u :=
  ⟨k.params.trans h.params, k.err.trans h.err, k.keybuf.trans h.keybuf, k.keyLen.trans h.keyLen,
    k.msgbuf.trans h.msgbuf, k.msgLen.trans h.msgLen, k.resp.trans h.resp, k.host.trans h.host⟩

theorem HashFrame.mac {s t : State} (h : HashFrame s t) : MacFrame s t :=
  ⟨h.params, h.err, h.keybuf, h.keyLen, h.msgbuf, h.msgLen, h.resp, h.host⟩

/-- Writing a space that is neither operand buffer leaves the operands. -/
theorem memWrite_macFrame {sp : Space} {a : Nat} {bs : List Byte} {s t : State} (h : memWrite sp a bs s = .next t)
    (hk : sp ≠ .keybuf) (hm : sp ≠ .msgbuf) : MacFrame s t := by
  obtain ⟨_, rfl⟩ := memWrite_eq_next h
  cases sp <;> first | exact absurd rfl hk | exact absurd rfl hm | exact ⟨rfl, rfl, rfl, rfl, rfl, rfl, rfl, rfl⟩

theorem uInit_frame {m : List Byte} {s t : State} (h : uInit m s = .next t) :
    HashFrame s t ∧ t.digest = s.digest ∧ t.v = s.v ∧ t.w = s.w ∧ t.t = s.t ∧
      t.workLen = m.length ∧ t.h = IV ∧ t.blk = 0 ∧ t.nblk = 0 ∧ t.phase = .init := by
  obtain ⟨u, hw, ht⟩ := andThen_eq_next h
  obtain ⟨_, rfl⟩ := memWrite_eq_next hw
  cases ht
  exact ⟨⟨rfl, rfl, rfl, rfl, rfl, rfl, rfl, rfl, rfl, rfl⟩, rfl, rfl, rfl, rfl, rfl, rfl, rfl, rfl, rfl⟩

theorem uPad_frame {s t : State} (h : uPad s = .next t) :
    HashFrame s t ∧ t.digest = s.digest ∧ t.h = s.h ∧ t.v = s.v ∧ t.w = s.w ∧ t.t = s.t ∧
      t.workLen = s.workLen + (padTail s.workLen).length ∧ t.nblk = t.workLen / 64 ∧ t.blk = 0 ∧
      t.phase = .padded := by
  unfold uPad at h
  split at h
  · obtain ⟨u, hw, ht⟩ := andThen_eq_next h
    obtain ⟨_, rfl⟩ := memWrite_eq_next hw
    cases ht
    exact ⟨⟨rfl, rfl, rfl, rfl, rfl, rfl, rfl, rfl, rfl, rfl⟩, rfl, rfl, rfl, rfl, rfl, rfl, rfl, rfl, rfl⟩
  · cases h

/-- If `U_COMPRESS` answers next, the block lies inside `WORK`; what it writes is then `uCompress_eq`. -/
theorem uCompress_le {s t : State} (h : uCompress s = .next t) : 64 * s.blk + 64 ≤ workMax s.params := by
  obtain ⟨u, hs, _⟩ := andThen_eq_next h
  exact (memRead_eq_next hs).1

theorem uCompress_frame {s t : State} (h : uCompress s = .next t) :
    HashFrame s t ∧ t.digest = s.digest ∧ t.work = s.work ∧ t.workLen = s.workLen ∧ t.nblk = s.nblk ∧
      t.blk = s.blk + 1 ∧ t.phase = .compressing := by
  rw [uCompress_eq (uCompress_le h)] at h
  cases h
  exact ⟨⟨rfl, rfl, rfl, rfl, rfl, rfl, rfl, rfl, rfl, rfl⟩, rfl, rfl, rfl, rfl, rfl, rfl⟩

theorem uCompressAll_frame {n : Nat} {s t : State} (h : uCompressAll n s = .next t) :
    HashFrame s t ∧ t.digest = s.digest ∧ t.work = s.work ∧ t.workLen = s.workLen ∧ t.nblk = s.nblk := by
  induction n generalizing s with
  | zero =>
    cases h
    exact ⟨HashFrame.refl _, rfl, rfl, rfl, rfl⟩
  | succ n ih =>
    unfold uCompressAll at h
    split at h
    · obtain ⟨u, hc, hr⟩ := andThen_eq_next h
      obtain ⟨hf, hd, hw, hl, hn, _, _⟩ := uCompress_frame hc
      obtain ⟨hf', hd', hw', hl', hn'⟩ := ih hr
      exact ⟨hf.trans hf', hd'.trans hd, hw'.trans hw, hl'.trans hl, hn'.trans hn⟩
    · cases h
      exact ⟨HashFrame.refl _, rfl, rfl, rfl, rfl⟩

theorem uFinalize_frame {s t : State} (h : uFinalize s = .next t) :
    HashFrame s t ∧ t.h = s.h ∧ t.v = s.v ∧ t.w = s.w ∧ t.t = s.t ∧ t.work = s.work ∧ t.workLen = s.workLen ∧
      t.blk = s.blk ∧ t.nblk = s.nblk ∧ t.phase = .finalized := by
  rw [uFinalize_eq] at h
  cases h
  exact ⟨⟨rfl, rfl, rfl, rfl, rfl, rfl, rfl, rfl, rfl, rfl⟩, rfl, rfl, rfl, rfl, rfl, rfl, rfl, rfl, rfl⟩

theorem uHash_frame {m : List Byte} {s t : State} (h : uHash m s = .next t) :
    HashFrame s t ∧ t.phase = .finalized := by
  obtain ⟨a, ha, h⟩ := andThen_eq_next h
  obtain ⟨b, hb, h⟩ := andThen_eq_next h
  obtain ⟨c, hc, h⟩ := andThen_eq_next h
  have hf := uFinalize_frame h
  exact ⟨((uInit_frame ha).1.trans (uPad_frame hb).1).trans ((uCompressAll_frame hc).1.trans hf.1),
    hf.2.2.2.2.2.2.2.2.2⟩

theorem uKprep_frame {s t : State} (h : uKprep s = .next t) : MacFrame s t := by
  obtain ⟨_, h⟩ := memRead_eq_next h
  split at h
  · obtain ⟨a, ha, h⟩ := andThen_eq_next h
    obtain ⟨_, h⟩ := memRead_eq_next h
    exact (uHash_frame ha).1.mac.trans (memWrite_macFrame h (by simp) (by simp))
  · exact memWrite_macFrame h (by simp) (by simp)

theorem uHashMasked_frame {mask rest : List Byte} {s t : State} (h : uHashMasked mask rest s = .next t) :
    HashFrame s t ∧ t.phase = .finalized := by
  obtain ⟨_, h⟩ := memRead_eq_next h
  split at h
  · exact uHash_frame h
  · cases h

theorem uInner_frame {s t : State} (h : uInner s = .next t) : MacFrame s t := by
  obtain ⟨_, h⟩ := memRead_eq_next h
  obtain ⟨a, ha, h⟩ := andThen_eq_next h
  obtain ⟨_, h⟩ := memRead_eq_next h
  exact (uHashMasked_frame ha).1.mac.trans (memWrite_macFrame h (by simp) (by simp))

theorem uOuter_frame {s t : State} (h : uOuter s = .next t) : HashFrame s t ∧ t.phase = .finalized := by
  obtain ⟨_, h⟩ := memRead_eq_next h
  exact uHashMasked_frame h

theorem uHmac_frame {s t : State} (h : uHmac s = .next t) : MacFrame s t ∧ t.phase = .finalized := by
  obtain ⟨a, ha, h⟩ := andThen_eq_next h
  obtain ⟨b, hb, h⟩ := andThen_eq_next h
  have ho := uOuter_frame h
  exact ⟨((uKprep_frame ha).trans (uInner_frame hb)).trans ho.1.mac, ho.2⟩

/-! ## Canonical form -/

theorem memWrite_wf {sp : Space} {a : Nat} {bs : List Byte} {s t : State} (h : memWrite sp a bs s = .next t)
    (hs : ∀ sp, Memory.wf (s.space sp)) : ∀ sp, Memory.wf (t.space sp) := by
  obtain ⟨_, rfl⟩ := memWrite_eq_next h
  intro sp'
  rw [State.space_setSpace]
  split
  · exact Memory.write_wf (hs sp) a bs
  · exact hs sp'

/-- A state that holds the same bytes is canonical alike. -/
theorem wf_of_space_eq {s t : State} (h : ∀ sp, t.space sp = s.space sp) (hs : ∀ sp, Memory.wf (s.space sp)) :
    ∀ sp, Memory.wf (t.space sp) := fun sp => by rw [h sp]; exact hs sp

theorem uInit_wf {m : List Byte} {s t : State} (h : uInit m s = .next t) (hs : ∀ sp, Memory.wf (s.space sp)) :
    ∀ sp, Memory.wf (t.space sp) := by
  obtain ⟨u, hw, ht⟩ := andThen_eq_next h
  have hu := memWrite_wf hw hs
  cases ht
  exact wf_of_space_eq (fun sp => by cases sp <;> rfl) hu

theorem uPad_wf {s t : State} (h : uPad s = .next t) (hs : ∀ sp, Memory.wf (s.space sp)) :
    ∀ sp, Memory.wf (t.space sp) := by
  unfold uPad at h
  split at h
  · obtain ⟨u, hw, ht⟩ := andThen_eq_next h
    have hu := memWrite_wf hw hs
    cases ht
    exact wf_of_space_eq (fun sp => by cases sp <;> rfl) hu
  · cases h

theorem uCompressAll_wf {n : Nat} {s t : State} (h : uCompressAll n s = .next t)
    (hs : ∀ sp, Memory.wf (s.space sp)) : ∀ sp, Memory.wf (t.space sp) := by
  obtain ⟨hf, hd, hw, _, _⟩ := uCompressAll_frame h
  refine wf_of_space_eq (fun sp => ?_) hs
  cases sp
  exacts [hf.keybuf, hf.msgbuf, hw, hf.k0, hf.inner, hd]

theorem uFinalize_wf {s t : State} (h : uFinalize s = .next t) (hs : ∀ sp, Memory.wf (s.space sp)) :
    ∀ sp, Memory.wf (t.space sp) := by
  obtain ⟨u, hw, ht⟩ := andThen_eq_next h
  have hu := memWrite_wf hw hs
  cases ht
  exact wf_of_space_eq (fun sp => by cases sp <;> rfl) hu

theorem uHash_wf {m : List Byte} {s t : State} (h : uHash m s = .next t) (hs : ∀ sp, Memory.wf (s.space sp)) :
    ∀ sp, Memory.wf (t.space sp) := by
  obtain ⟨a, ha, h⟩ := andThen_eq_next h
  obtain ⟨b, hb, h⟩ := andThen_eq_next h
  obtain ⟨c, hc, h⟩ := andThen_eq_next h
  exact uFinalize_wf h (uCompressAll_wf hc (uPad_wf hb (uInit_wf ha hs)))

theorem uHashMasked_wf {mask rest : List Byte} {s t : State} (h : uHashMasked mask rest s = .next t)
    (hs : ∀ sp, Memory.wf (s.space sp)) : ∀ sp, Memory.wf (t.space sp) := by
  obtain ⟨_, h⟩ := memRead_eq_next h
  split at h
  · exact uHash_wf h hs
  · cases h

theorem uHmac_wf {s t : State} (h : uHmac s = .next t) (hs : ∀ sp, Memory.wf (s.space sp)) :
    ∀ sp, Memory.wf (t.space sp) := by
  obtain ⟨a, ha, h⟩ := andThen_eq_next h
  obtain ⟨b, hb, h⟩ := andThen_eq_next h
  have hka : ∀ sp, Memory.wf (a.space sp) := by
    obtain ⟨_, ha⟩ := memRead_eq_next ha
    split at ha
    · obtain ⟨c, hc, ha⟩ := andThen_eq_next ha
      exact memWrite_wf (memRead_eq_next ha).2 (uHash_wf hc hs)
    · exact memWrite_wf ha hs
  have hkb : ∀ sp, Memory.wf (b.space sp) := by
    obtain ⟨_, hb⟩ := memRead_eq_next hb
    obtain ⟨c, hc, hb⟩ := andThen_eq_next hb
    exact memWrite_wf (memRead_eq_next hb).2 (uHashMasked_wf hc hka)
  exact uHashMasked_wf (memRead_eq_next h).2 hkb

/-- Reset memory is canonical. -/
theorem resetOf_wf (p : Params) : ∀ sp, Memory.wf ((State.resetOf p).space sp) := fun sp => by
  rw [State.resetOf_space]
  exact ⟨List.Pairwise.nil, by simp⟩

end Sys2Proof.Machine
end

