-- ==== Sys2Proof/Laws/Mac.lean ====
section
/-! SUPPORT. What the passes of the HMAC controller do within the capacities (42_hmac.md R141, R144). -/

namespace Sys2Proof.Machine

/-- A write that fits: the next state, its frame and its bytes. -/
theorem memWrite_spec {sp : Space} {a : Nat} {bs : List Byte} {s : State} (h : a + bs.length ≤ sp.size s.params) :
    ∃ t, memWrite sp a bs s = .next t ∧ t = s.setSpace sp (Memory.write (s.space sp) a bs) ∧
      ∀ x, t.byteAt sp x = if a ≤ x ∧ x < a + bs.length then bs.getD (x - a) 0 else s.byteAt sp x := by
  refine ⟨_, memWrite_of_le h, rfl, fun x => ?_⟩
  rw [State.byteAt, State.space_setSpace_same, Memory.read_write]
  rfl

/-- `U_HASH(m)` within the capacity answers next; the bytes it leaves in `WORK` and `DIGEST`. -/
theorem uHash_spec {m : List Byte} {s : State} (h : m.length ≤ seqMax s.params) :
    ∃ t, uHash m s = .next t ∧ HashFrame s t ∧ t.phase = .finalized ∧ t.t = 64 ∧
      sha256 m = some t.digestBytes ∧ t.digestBytes = finalize t.h ∧ pad m = some t.workBytes ∧
      t.workLen = 64 * ((m.length + 8) / 64 + 1) ∧ t.nblk = (m.length + 8) / 64 + 1 ∧ t.blk = t.nblk ∧
      t.h = hashBlocks t.workBytes t.nblk ∧
      t.w = schedule (blockAt t.workBytes (t.nblk - 1)) ∧
      t.v = rounds t.w (WorkVars.ofHash (hashBlocks t.workBytes (t.nblk - 1))) ∧
      (∀ a, t.workLen ≤ a → t.byteAt .work a = s.byteAt .work a) ∧
      (∀ a, 32 ≤ a → t.byteAt .digest a = s.byteAt .digest a) := by
  have he := uHash_eq (s := s) h rfl rfl
  have hd := digestBytes_uHash h he
  have hw := workBytes_uHash h he
  have hf := uHash_frame he
  have hl := padded_length m.length
  set p := m ++ padTail m.length with hp
  set t : State := { s with
    work := Memory.write (Memory.write s.work 0 m) m.length (padTail m.length)
    workLen := p.length
    h := hashBlocks p (p.length / 64)
    v := rounds (schedule (blockAt p (p.length / 64 - 1))) (WorkVars.ofHash (hashBlocks p (p.length / 64 - 1)))
    w := schedule (blockAt p (p.length / 64 - 1))
    t := 64, blk := p.length / 64, nblk := p.length / 64, phase := .finalized
    digest := Memory.write s.digest 0 (finalize (hashBlocks p (p.length / 64))) } with ht
  have hpl : p.length = 64 * ((m.length + 8) / 64 + 1) := by rw [hp, List.length_append, hl]
  have hwp : t.workBytes = p := by
    have := (pad_eq_some hw).2
    rw [this]
  have hdg : t.digestBytes = finalize t.h := by
    have := Memory.bytes_write_same s.digest 0 (finalize (hashBlocks p (p.length / 64)))
    rwa [finalize_length] at this
  refine ⟨t, he, hf.1, hf.2, rfl, hd, hdg, hw, hpl, ?_, rfl, ?_, ?_, ?_, fun a ha => ?_, fun a ha => ?_⟩
  · simp only [ht]
    omega
  · rw [hwp]
  · rw [hwp]
  · rw [hwp]
  · change Memory.read (Memory.write (Memory.write s.work 0 m) m.length (padTail m.length)) a = Memory.read s.work a
    have : m.length + (padTail m.length).length ≤ a := by rw [hl, ← hpl]; exact ha
    rw [Memory.read_write, if_neg (by omega), Memory.read_write, if_neg (by omega)]
  · change Memory.read (Memory.write s.digest 0 _) a = Memory.read s.digest a
    rw [Memory.read_write, if_neg (by rw [finalize_length]; omega)]

/-- The masked pass is `U_HASH` of the masked key and the rest: `xorBytes` never fails on 64 bytes (R142). -/
theorem uHashMasked_eq {mask rest ik : List Byte} {s : State} (h : xorBytes (s.content .k0 64) mask = some ik) :
    uHashMasked mask rest s = uHash (ik ++ rest) s := by
  rw [uHashMasked, memRead_of_le _ (by simp [Space.size])]
  have h' : xorBytes (Memory.bytes (s.space .k0) 0 64) mask = some ik := h
  rw [h']
  rfl

theorem xorBytes_k0 {mask : List Byte} (s : State) (h : mask.length = 64) :
    ∃ ik, xorBytes (s.content .k0 64) mask = some ik ∧ ik.length = 64 := by
  have hl : (s.content .k0 64).length = mask.length := by rw [State.content_length, h]
  refine ⟨_, xorBytes_of_length hl, ?_⟩
  simp [State.content_length, h]

/-- `U_KPREP` leaves `prepareKey(KEYBUF[0..KEYLEN))` in `K0` (R141). -/
theorem uKprep_spec {s : State} (h : s.keyLen ≤ s.params.keyMax.val) :
    ∃ t, uKprep s = .next t ∧ MacFrame s t ∧ t.inner = s.inner ∧ prepareKey s.keyBytes = some (t.content .k0 64) ∧
      (∀ a, 64 ≤ a → t.byteAt .k0 a = s.byteAt .k0 a) ∧
      (∀ a, 32 ≤ a → t.byteAt .digest a = s.byteAt .digest a) ∧
      (∀ a, (64 < s.keyLen → 64 * ((s.keyLen + 8) / 64 + 1) ≤ a) → t.byteAt .work a = s.byteAt .work a) := by
  have hread : ∀ use, memRead .keybuf 0 s.keyLen s use = use s.keyBytes := fun use =>
    memRead_of_le use (by simpa [Space.size] using h)
  rw [uKprep, hread]
  split
  · rename_i hlong
    obtain ⟨u, hu, hf, _, _, hd, _, _, hwl, _, _, _, _, _, hwk, hdg⟩ :=
      uHash_spec (m := s.keyBytes) (s := s) (by
        rw [State.keyBytes_length]; exact Nat.le_trans h (keyMax_le_seqMax _))
    rw [State.keyBytes_length] at hwl
    obtain ⟨t, ht, hte, htb⟩ := memWrite_spec (sp := .k0) (a := 0) (s := u)
      (bs := u.digestBytes ++ List.replicate 32 0) (by simp [Space.size])
    refine ⟨t, ?_, hf.mac.trans (memWrite_macFrame ht (by simp) (by simp)), ?_, ?_, ?_, ?_, ?_⟩
    · rw [hu, andThen_next, memRead_of_le _ (by simp [Space.size])]
      exact ht
    · rw [hte]; exact hf.inner
    · rw [prepareKey, if_pos (by rw [State.keyBytes_length]; exact hlong), hd, hte]
      refine congrArg some ?_
      have := Memory.bytes_write_same u.k0 0 (u.digestBytes ++ List.replicate 32 0)
      rw [List.length_append, State.digestBytes_length, List.length_replicate] at this
      exact this.symm
    · intro a ha
      rw [htb, if_neg (by simp; omega)]
      simp only [State.byteAt, State.space_k0, hf.k0]
    · intro a ha
      rw [hte]
      exact hdg a ha
    · intro a ha
      rw [hte]
      exact hwk a (by rw [hwl]; exact ha hlong)
  · rename_i hshort
    obtain ⟨t, ht, hte, htb⟩ := memWrite_spec (sp := .k0) (a := 0) (s := s)
      (bs := s.keyBytes ++ List.replicate (64 - s.keyLen) 0) (by simp [Space.size]; omega)
    refine ⟨t, ht, memWrite_macFrame ht (by simp) (by simp), by rw [hte]; rfl, ?_, ?_, ?_, ?_⟩
    · rw [prepareKey, if_neg (by rw [State.keyBytes_length]; exact hshort), hte]
      refine congrArg some ?_
      have := Memory.bytes_write_same s.k0 0 (s.keyBytes ++ List.replicate (64 - s.keyLen) 0)
      rw [List.length_append, State.keyBytes_length, List.length_replicate,
        show s.keyLen + (64 - s.keyLen) = 64 by omega] at this
      rw [zeroPadKey, concatBytes, State.keyBytes_length]
      exact this.symm
    · intro a ha
      rw [htb, if_neg (by simp; omega)]
    · intro a _
      rw [hte]
      rfl
    · intro a _
      rw [hte]
      rfl

/-- The INNER pass leaves the inner digest in `INNER` (R144). -/
theorem uInner_spec {s : State} {ik : List Byte} (h : s.msgLen ≤ s.params.msgMax.val)
    (hik : xorBytes (s.content .k0 64) ipad64 = some ik) (hl : ik.length = 64) :
    ∃ t, uInner s = .next t ∧ MacFrame s t ∧ t.k0 = s.k0 ∧ sha256 (ik ++ s.msgBytes) = some (t.content .inner 32) ∧
      (∀ a, 32 ≤ a → t.byteAt .inner a = s.byteAt .inner a) ∧
      (∀ a, 32 ≤ a → t.byteAt .digest a = s.byteAt .digest a) ∧
      (∀ a, 64 * ((64 + s.msgLen + 8) / 64 + 1) ≤ a → t.byteAt .work a = s.byteAt .work a) := by
  have hread : ∀ use, memRead .msgbuf 0 s.msgLen s use = use s.msgBytes := fun use =>
    memRead_of_le use (by simpa [Space.size] using h)
  have hlen : (ik ++ s.msgBytes).length = 64 + s.msgLen := by simp [hl]
  obtain ⟨u, hu, hf, _, _, hd, _, _, hwl, _, _, _, _, _, hwk, hdg⟩ :=
    uHash_spec (m := ik ++ s.msgBytes) (s := s) (by
      rw [hlen]; exact Nat.le_trans (by omega) (msgMax_le_seqMax _))
  rw [hlen] at hwl
  obtain ⟨t, ht, hte, htb⟩ := memWrite_spec (sp := .inner) (a := 0) (s := u) (bs := u.digestBytes)
    (by simp [Space.size])
  refine ⟨t, ?_, hf.mac.trans (memWrite_macFrame ht (by simp) (by simp)), ?_, ?_, ?_, ?_, ?_⟩
  · rw [uInner, hread]
    rw [uHashMasked_eq hik, hu, andThen_next, memRead_of_le _ (by simp [Space.size])]
    exact ht
  · rw [hte]; exact hf.k0
  · rw [hd, hte]
    have := Memory.bytes_write_same u.inner 0 u.digestBytes
    rw [State.digestBytes_length] at this
    exact congrArg some this.symm
  · intro a ha
    rw [htb, if_neg (by simp; omega)]
    simp only [State.byteAt, State.space_inner, hf.inner]
  · intro a ha
    rw [hte]
    exact hdg a ha
  · intro a ha
    rw [hte]
    exact hwk a (by rw [hwl]; exact ha)

/-- The OUTER pass is `U_HASH` of the 96 bytes `(K0 xor opad64) ++ INNER` (R144). -/
theorem uOuter_eq {s : State} {ok : List Byte} (hok : xorBytes (s.content .k0 64) opad64 = some ok) :
    uOuter s = uHash (ok ++ s.content .inner 32) s := by
  rw [uOuter, memRead_of_le _ (by simp [Space.size]), uHashMasked_eq hok]
  rfl

end Sys2Proof.Machine
end

