-- ==== Sys2Proof/Laws/Exec.lean ====
section
/-! SUPPORT. What each command can answer, said once: if it answers next, it raised the error its checks name, or its
micro-operations answered and the response is success. -/

namespace Sys2Proof.Machine

/-- The state after an error. -/
def State.raised (s : State) (e : Status) : State := { s with err := e, resp := some ⟨e, 0⟩ }

/-- The state after a success. -/
def State.responded (s : State) (d : Byte) : State := { s with resp := some ⟨.ok, d⟩ }

theorem raise_eq (e : Status) (s : State) : raise e s = .next (s.raised e) := rfl

theorem respond_eq (d : Byte) (s : State) : respond d s = .next (s.responded d) := rfl

/-- A computation followed by the response 0x00. -/
theorem andThen_respond {r : Result} {t : State} (h : andThen r (respond 0) = .next t) :
    ∃ u, r = .next u ∧ t = u.responded 0 := by
  obtain ⟨u, hr, hu⟩ := andThen_eq_next h
  exact ⟨u, hr, (Host.Outcome.next.inj hu).symm⟩

theorem execNop_eq (s : State) : execNop s = .next (s.responded 0) := rfl

theorem execClr_eq (s : State) : execClr s = .next ((resetEngine s).responded 0) := rfl

theorem execKclr_eq (s : State) : execKclr s = .next ({ s with keyLen := 0 }.responded 0) := rfl

theorem execMclr_eq (s : State) : execMclr s = .next ({ s with msgLen := 0 }.responded 0) := rfl

theorem execKpush_next {b : Byte} {s t : State} (h : execKpush b s = .next t) :
    (s.keyLen = s.params.keyMax.val ∧ t = s.raised .eSize) ∨
    (s.keyLen ≠ s.params.keyMax.val ∧ s.keyLen + 1 ≤ s.params.keyMax.val ∧
      t = { s with keybuf := Memory.write s.keybuf s.keyLen [b], keyLen := s.keyLen + 1 }.responded 0) := by
  unfold execKpush at h
  split at h
  · exact Or.inl ⟨‹_›, raise_eq_next h⟩
  · obtain ⟨u, hw, ht⟩ := andThen_eq_next h
    obtain ⟨hle, rfl⟩ := memWrite_eq_next hw
    exact Or.inr ⟨‹_›, hle, respond_eq_next ht⟩

theorem execMpush_next {b : Byte} {s t : State} (h : execMpush b s = .next t) :
    (s.msgLen = s.params.msgMax.val ∧ t = s.raised .eSize) ∨
    (s.msgLen ≠ s.params.msgMax.val ∧ s.msgLen + 1 ≤ s.params.msgMax.val ∧
      t = { s with msgbuf := Memory.write s.msgbuf s.msgLen [b], msgLen := s.msgLen + 1 }.responded 0) := by
  unfold execMpush at h
  split at h
  · exact Or.inl ⟨‹_›, raise_eq_next h⟩
  · obtain ⟨u, hw, ht⟩ := andThen_eq_next h
    obtain ⟨hle, rfl⟩ := memWrite_eq_next hw
    exact Or.inr ⟨‹_›, hle, respond_eq_next ht⟩

theorem execSha256_next {s t : State} (h : execSha256 s = .next t) :
    s.msgLen ≤ s.params.msgMax.val ∧ ∃ u, uHash s.msgBytes s = .next u ∧ t = u.responded 0 := by
  obtain ⟨hle, h⟩ := memRead_eq_next h
  exact ⟨by simpa [Space.size] using hle, andThen_respond h⟩

theorem execHmac_next {s t : State} (h : execHmac s = .next t) : ∃ u, uHmac s = .next u ∧ t = u.responded 0 :=
  andThen_respond h

theorem execWload_next {s t : State} (h : execWload s = .next t) :
    s.msgLen ≤ s.params.msgMax.val ∧ ∃ u, uInit s.msgBytes s = .next u ∧ t = u.responded 0 := by
  obtain ⟨hle, h⟩ := memRead_eq_next h
  exact ⟨by simpa [Space.size] using hle, andThen_respond h⟩

theorem execPad_next {s t : State} (h : execPad s = .next t) :
    (s.phase ≠ .init ∧ t = s.raised .eSeq) ∨
    (s.phase = .init ∧ ∃ u, uPad s = .next u ∧ t = u.responded 0) := by
  unfold execPad at h
  split at h
  · exact Or.inr ⟨by simpa [canPad] using ‹canPad s = true›, andThen_respond h⟩
  · exact Or.inl ⟨by simpa [canPad] using ‹¬canPad s = true›, raise_eq_next h⟩

theorem execCompress_next {s t : State} (h : execCompress s = .next t) :
    (¬((s.phase = .padded ∨ s.phase = .compressing) ∧ s.blk ≠ s.nblk) ∧ t = s.raised .eSeq) ∨
    (((s.phase = .padded ∨ s.phase = .compressing) ∧ s.blk ≠ s.nblk) ∧
      ∃ u, uCompress s = .next u ∧ t = u.responded 0) := by
  unfold execCompress at h
  split at h
  · exact Or.inr ⟨of_decide_eq_true ‹canCompress s = true›, andThen_respond h⟩
  · exact Or.inl ⟨by simpa only [canCompress, decide_eq_true_eq] using ‹¬canCompress s = true›, raise_eq_next h⟩

theorem execFinalize_next {s t : State} (h : execFinalize s = .next t) :
    (¬(s.phase = .compressing ∧ s.blk = s.nblk) ∧ t = s.raised .eSeq) ∨
    ((s.phase = .compressing ∧ s.blk = s.nblk) ∧ ∃ u, uFinalize s = .next u ∧ t = u.responded 0) := by
  unfold execFinalize at h
  split at h
  · exact Or.inr ⟨of_decide_eq_true ‹canFinalize s = true›, andThen_respond h⟩
  · exact Or.inl ⟨by simpa only [canFinalize, decide_eq_true_eq] using ‹¬canFinalize s = true›, raise_eq_next h⟩

theorem execRdd_next {i : Nat} {s t : State} (h : execRdd i s = .next t) :
    (s.phase ≠ .finalized ∧ t = s.raised .eSeq) ∨
    (s.phase = .finalized ∧ 32 ≤ i ∧ t = s.raised .eArg) ∨
    (s.phase = .finalized ∧ i < 32 ∧ t = s.responded (s.byteAt .digest i)) := by
  unfold execRdd at h
  split at h
  · have hp : s.phase = .finalized := of_decide_eq_true ‹dvalid s = true›
    split at h
    · exact Or.inr (Or.inr ⟨hp, of_decide_eq_true ‹digestIndex i = true›, respond_eq_next h⟩)
    · exact Or.inr (Or.inl ⟨hp, by simpa [digestIndex] using ‹¬digestIndex i = true›, raise_eq_next h⟩)
  · exact Or.inl ⟨by simpa [dvalid] using ‹¬dvalid s = true›, raise_eq_next h⟩

theorem execRds_next {a : Nat} {s t : State} (h : execRds a s = .next t) :
    (window s a = none ∧ t = s.raised .eArg) ∨ (∃ b, window s a = some b ∧ t = s.responded b) := by
  unfold execRds at h
  split at h
  · exact Or.inr ⟨_, ‹_›, respond_eq_next h⟩
  · exact Or.inl ⟨‹_›, raise_eq_next h⟩

/-- The window has a byte exactly at the addresses that are not reserved (10_state.md R34). -/
theorem window_eq_none_iff (s : State) (a : Nat) : window s a = none ↔ reservedAddress a = true := by
  unfold window reservedAddress
  have hc : (wordsToBytes (counterWords s)).length = 20 := by simp [counterWords]
  have hh : (wordsToBytes s.h.toList).length = 32 := by simp
  have hv : (wordsToBytes s.v.toVector.toList).length = 32 := by simp
  repeat' split
  all_goals
    simp only [reduceCtorEq, false_iff, true_iff, decide_eq_true_eq, List.getElem?_eq_none_iff, hc, hh, hv]
    omega

/-! ## The step -/

theorem step_idle {s : State} (h : s.host = []) : step s = .next s := by simp [step, h]

theorem step_event {s : State} {e : HostEvent} {rest : List HostEvent} (h : s.host = e :: rest) :
    step s = acceptEvent e { s with host := rest } := by simp [step, h]

/-- What a step that answers next did. -/
theorem step_next {s t : State} (h : step s = .next t) :
    (s.host = [] ∧ t = s) ∨
    (∃ c i rest, s.host = .command c :: rest ∧ decode c = .ok i ∧ exec i { s with host := rest } = .next t) ∨
    (∃ c e rest, s.host = .command c :: rest ∧ decode c = .error e ∧
      t = { s with host := rest }.raised .eIllegal) ∨
    (∃ e rest, s.host = e :: rest ∧ (e = .reset ∨ ∃ c, e = .resetDuring c) ∧
      t = resetEngine { s with host := rest }) := by
  unfold step at h
  split at h
  · exact Or.inl ⟨‹_›, (Host.Outcome.next.inj h).symm⟩
  · rename_i e rest hs
    cases e with
    | command c =>
      simp only [acceptEvent, acceptCommand] at h
      split at h
      · exact Or.inr (Or.inl ⟨c, _, rest, hs, ‹_›, h⟩)
      · exact Or.inr (Or.inr (Or.inl ⟨c, _, rest, hs, ‹_›, raise_eq_next h⟩))
    | reset => exact Or.inr (Or.inr (Or.inr ⟨_, rest, hs, Or.inl rfl, (Host.Outcome.next.inj h).symm⟩))
    | resetDuring c =>
      exact Or.inr (Or.inr (Or.inr ⟨_, rest, hs, Or.inr ⟨c, rfl⟩, (Host.Outcome.next.inj h).symm⟩))

end Sys2Proof.Machine
end

