-- ==== Sys2Proof/Laws/Inversion.lean ====
section
/-! SUPPORT. What a command that answers next did, said once for all commands: it failed, or it succeeded. -/

namespace Sys2Proof.Machine

/-- The command fails with this error. -/
inductive Fails : Instr → State → Status → Prop
  | pad {s} (h : s.phase ≠ .init) : Fails .pad s .eSeq
  | compress {s} (h : ¬((s.phase = .padded ∨ s.phase = .compressing) ∧ s.blk ≠ s.nblk)) : Fails .compress s .eSeq
  | finalize {s} (h : ¬(s.phase = .compressing ∧ s.blk = s.nblk)) : Fails .finalize s .eSeq
  | rddPhase {i s} (h : s.phase ≠ .finalized) : Fails (.rdd i) s .eSeq
  | rddIndex {i s} (h : s.phase = .finalized) (hi : 32 ≤ i) : Fails (.rdd i) s .eArg
  | rds {a s} (h : window s a = none) : Fails (.rds a) s .eArg
  | kpush {b s} (h : s.keyLen = s.params.keyMax.val) : Fails (.kpush b) s .eSize
  | mpush {b s} (h : s.msgLen = s.params.msgMax.val) : Fails (.mpush b) s .eSize

/-- The command succeeds: the state before its response, and the data it answers. -/
inductive Succeeds : Instr → State → State → Byte → Prop
  | nop {s} : Succeeds .nop s s 0
  | clr {s} : Succeeds .clr s (resetEngine s) 0
  | kclr {s} : Succeeds .kclr s { s with keyLen := 0 } 0
  | mclr {s} : Succeeds .mclr s { s with msgLen := 0 } 0
  | kpush {b s} (h : s.keyLen + 1 ≤ s.params.keyMax.val) :
    Succeeds (.kpush b) s { s with keybuf := Memory.write s.keybuf s.keyLen [b], keyLen := s.keyLen + 1 } 0
  | mpush {b s} (h : s.msgLen + 1 ≤ s.params.msgMax.val) :
    Succeeds (.mpush b) s { s with msgbuf := Memory.write s.msgbuf s.msgLen [b], msgLen := s.msgLen + 1 } 0
  | sha256 {s u} (hl : s.msgLen ≤ s.params.msgMax.val) (h : uHash s.msgBytes s = .next u) : Succeeds .sha256 s u 0
  | hmac {s u} (h : uHmac s = .next u) : Succeeds .hmac s u 0
  | wload {s u} (hl : s.msgLen ≤ s.params.msgMax.val) (h : uInit s.msgBytes s = .next u) : Succeeds .wload s u 0
  | pad {s u} (hp : s.phase = .init) (h : uPad s = .next u) : Succeeds .pad s u 0
  | compress {s u} (hp : s.phase = .padded ∨ s.phase = .compressing) (hb : s.blk ≠ s.nblk)
    (h : uCompress s = .next u) : Succeeds .compress s u 0
  | finalize {s u} (hp : s.phase = .compressing) (hb : s.blk = s.nblk) (h : uFinalize s = .next u) :
    Succeeds .finalize s u 0
  | rdd {i s} (hp : s.phase = .finalized) (hi : i < 32) : Succeeds (.rdd i) s s (s.byteAt .digest i)
  | rds {a s d} (h : window s a = some d) : Succeeds (.rds a) s s d

/-- A command that answers next failed, and changed `ERR` and the response alone, or succeeded. -/
theorem exec_next {i : Instr} {s t : State} (h : exec i s = .next t) :
    (∃ e, Fails i s e ∧ t = s.raised e) ∨ (∃ u d, Succeeds i s u d ∧ t = u.responded d) := by
  cases i with
  | nop => exact Or.inr ⟨_, _, .nop, respond_eq_next h⟩
  | clr => exact Or.inr ⟨_, _, .clr, respond_eq_next h⟩
  | kclr => exact Or.inr ⟨_, _, .kclr, respond_eq_next h⟩
  | mclr => exact Or.inr ⟨_, _, .mclr, respond_eq_next h⟩
  | kpush b =>
    rcases execKpush_next h with ⟨a, h⟩ | ⟨_, a, h⟩
    · exact Or.inl ⟨_, .kpush a, h⟩
    · exact Or.inr ⟨_, _, .kpush a, h⟩
  | mpush b =>
    rcases execMpush_next h with ⟨a, h⟩ | ⟨_, a, h⟩
    · exact Or.inl ⟨_, .mpush a, h⟩
    · exact Or.inr ⟨_, _, .mpush a, h⟩
  | sha256 =>
    obtain ⟨a, u, hu, h⟩ := execSha256_next h
    exact Or.inr ⟨_, _, .sha256 a hu, h⟩
  | hmac =>
    obtain ⟨u, hu, h⟩ := execHmac_next h
    exact Or.inr ⟨_, _, .hmac hu, h⟩
  | wload =>
    obtain ⟨a, u, hu, h⟩ := execWload_next h
    exact Or.inr ⟨_, _, .wload a hu, h⟩
  | pad =>
    rcases execPad_next h with ⟨a, h⟩ | ⟨a, u, hu, h⟩
    · exact Or.inl ⟨_, .pad a, h⟩
    · exact Or.inr ⟨_, _, .pad a hu, h⟩
  | compress =>
    rcases execCompress_next h with ⟨a, h⟩ | ⟨⟨a, b⟩, u, hu, h⟩
    · exact Or.inl ⟨_, .compress a, h⟩
    · exact Or.inr ⟨_, _, .compress a b hu, h⟩
  | finalize =>
    rcases execFinalize_next h with ⟨a, h⟩ | ⟨⟨a, b⟩, u, hu, h⟩
    · exact Or.inl ⟨_, .finalize a, h⟩
    · exact Or.inr ⟨_, _, .finalize a b hu, h⟩
  | rdd k =>
    rcases execRdd_next h with ⟨a, h⟩ | ⟨a, b, h⟩ | ⟨a, b, h⟩
    · exact Or.inl ⟨_, .rddPhase a, h⟩
    · exact Or.inl ⟨_, .rddIndex a b, h⟩
    · exact Or.inr ⟨_, _, .rdd a b, h⟩
  | rds a =>
    rcases execRds_next h with ⟨b, h⟩ | ⟨d, b, h⟩
    · exact Or.inl ⟨_, .rds b, h⟩
    · exact Or.inr ⟨_, _, .rds b, h⟩

/-- No command fails with success, with `E_ILLEGAL` or with `E_LEN`. -/
theorem Fails.status {i : Instr} {s : State} {e : Status} (h : Fails i s e) :
    e ≠ .ok ∧ e ≠ .eIllegal ∧ e ≠ .eLen := by
  cases h <;> simp

/-- A success leaves `ERR`, but for `CLR`, and the parameters and what the host does next. -/
theorem Succeeds.frame {i : Instr} {s u : State} {d : Byte} (h : Succeeds i s u d) :
    u.params = s.params ∧ u.host = s.host ∧ (i ≠ .clr → u.err = s.err) := by
  cases h with
  | nop => exact ⟨rfl, rfl, fun _ => rfl⟩
  | clr => exact ⟨rfl, rfl, fun h => absurd rfl h⟩
  | kclr => exact ⟨rfl, rfl, fun _ => rfl⟩
  | mclr => exact ⟨rfl, rfl, fun _ => rfl⟩
  | kpush _ => exact ⟨rfl, rfl, fun _ => rfl⟩
  | mpush _ => exact ⟨rfl, rfl, fun _ => rfl⟩
  | sha256 _ h => exact ⟨(uHash_frame h).1.params, (uHash_frame h).1.host, fun _ => (uHash_frame h).1.err⟩
  | hmac h => exact ⟨(uHmac_frame h).1.params, (uHmac_frame h).1.host, fun _ => (uHmac_frame h).1.err⟩
  | wload _ h => exact ⟨(uInit_frame h).1.params, (uInit_frame h).1.host, fun _ => (uInit_frame h).1.err⟩
  | pad _ h => exact ⟨(uPad_frame h).1.params, (uPad_frame h).1.host, fun _ => (uPad_frame h).1.err⟩
  | compress _ _ h =>
    exact ⟨(uCompress_frame h).1.params, (uCompress_frame h).1.host, fun _ => (uCompress_frame h).1.err⟩
  | finalize _ _ h =>
    exact ⟨(uFinalize_frame h).1.params, (uFinalize_frame h).1.host, fun _ => (uFinalize_frame h).1.err⟩
  | rdd _ _ => exact ⟨rfl, rfl, fun _ => rfl⟩
  | rds _ => exact ⟨rfl, rfl, fun _ => rfl⟩

end Sys2Proof.Machine
end

