-- ==== Sys2Proof/Laws/PerInstr.lean ====
section
/-! SUPPORT. Statements made once per constructor of `Instr`. -/

namespace Sys2Proof.Laws.TableRow

/-- The encoding of a command lies in its own row of the opcode map, and its operand, if it has one, is the low byte
(30_encoding.md R61, R64). -/
def Statement (i : Instr) : Prop :=
  i.wellFormed = true →
    i.row ∈ opcodeTable ∧ encode i &&& i.row.mask = i.row.pattern ∧
      (encode i &&& ~~~i.row.mask).toNat =
        match i with
        | .kpush b => b.toNat
        | .mpush b => b.toNat
        | .rdd k => k
        | .rds a => a
        | _ => 0

theorem nop : Statement .nop := by unfold Statement; decide

theorem clr : Statement .clr := by unfold Statement; decide

theorem kpush (b : Byte) : Statement (.kpush b) := by
  intro _
  revert b
  decide

theorem mpush (b : Byte) : Statement (.mpush b) := by
  intro _
  revert b
  decide

theorem kclr : Statement .kclr := by unfold Statement; decide

theorem mclr : Statement .mclr := by unfold Statement; decide

theorem sha256 : Statement .sha256 := by unfold Statement; decide

theorem hmac : Statement .hmac := by unfold Statement; decide

theorem wload : Statement .wload := by unfold Statement; decide

theorem pad : Statement .pad := by unfold Statement; decide

theorem compress : Statement .compress := by unfold Statement; decide

theorem finalize : Statement .finalize := by unfold Statement; decide

theorem rdd (i : Nat) : Statement (.rdd i) := by
  intro h
  have hi : i < 256 := by simpa [Instr.wellFormed] using h
  obtain ⟨b, rfl⟩ : ∃ b : Byte, i = b.toNat := ⟨BitVec.ofNat 8 i, by simp; omega⟩
  clear h hi
  revert b
  decide +kernel

theorem rds (a : Nat) : Statement (.rds a) := by
  intro h
  have ha : a < 256 := by simpa [Instr.wellFormed] using h
  obtain ⟨b, rfl⟩ : ∃ b : Byte, a = b.toNat := ⟨BitVec.ofNat 8 a, by simp; omega⟩
  clear h ha
  revert b
  decide +kernel

end Sys2Proof.Laws.TableRow
end

