-- ==== Sys2Proof/Tests/Slice0.lean ====
section
/-! SUPPORT. Tests of the model, each on one step or one function, with the expected results of 95_test_vectors.md and
the words of 30_encoding.md, and a witness for the hypotheses of every statement that has some. -/

namespace Sys2Proof.Tests

open Sys2Proof.Machine

-- The kernel evaluates some tests for seconds: one theorem at a time keeps the number of waiting threads small.
set_option Elab.async false

/-! ## Small states -/

/-- What holds of the next state. -/
def after (r : Result) (p : State → Bool) : Bool :=
  match r with
  | .next t => p t
  | .fault _ => false
  | .refused _ => false

/-- The status, the data and the new `ERR` of a command, as 95_test_vectors.md lists them. -/
def answers (r : Result) (st data : Byte) (err : Status) : Bool :=
  after r fun t => decide (t.resp.map Response.word = some (st ++ data)) && decide (t.err = err)

/-- Reset, with three message bytes loaded. -/
def abc : State := { State.reset with msgbuf := [(0, 0x61), (1, 0x62), (2, 0x63)], msgLen := 3 }

/-- The padded empty message, no block compressed. -/
def paddedState : State := { State.reset with work := [(0, 0x80)], workLen := 64, nblk := 1, phase := .padded }

/-- Two blocks, one compressed. -/
def oneBlockLeft : State := { State.reset with workLen := 128, nblk := 2, blk := 1, phase := .compressing }

/-- One block, compressed. -/
def allCompressed : State := { State.reset with workLen := 64, nblk := 1, blk := 1, phase := .compressing }

/-- A finished computation with an all-zero hash state. -/
def finished : State :=
  { State.reset with h := Vector.replicate 8 0, workLen := 64, nblk := 1, blk := 1, phase := .finalized }

/-- Both operand buffers full, at the small parameters of program P5. -/
def full : State := { State.resetOf ⟨4, 2⟩ with keyLen := 4, msgLen := 2 }

/-- Both operand buffers full and empty, at the smallest parameters. -/
def empty : State := State.resetOf ⟨0, 0⟩

theorem inv_reset : State.reset.Inv :=
  ⟨fun sp => by cases sp <;> decide, by unfold State.RangesOk; decide, by unfold State.BlocksOk; decide, by decide,
    by intro h; cases h⟩

theorem inv_paddedState : paddedState.Inv :=
  ⟨fun sp => by cases sp <;> decide, by unfold State.RangesOk; decide, by unfold State.BlocksOk; decide, by decide,
    by intro h; cases h⟩

theorem inv_oneBlockLeft : oneBlockLeft.Inv :=
  ⟨fun sp => by cases sp <;> decide, by unfold State.RangesOk; decide, by unfold State.BlocksOk; decide, by decide,
    by intro h; cases h⟩

theorem inv_allCompressed : allCompressed.Inv :=
  ⟨fun sp => by cases sp <;> decide, by unfold State.RangesOk; decide, by unfold State.BlocksOk; decide, by decide,
    by intro h; cases h⟩

theorem inv_finished : finished.Inv :=
  ⟨fun sp => by cases sp <;> decide, by unfold State.RangesOk; decide, by unfold State.BlocksOk; decide, by decide,
    fun _ => by decide⟩

/-! ## Well-formed instructions -/

theorem test_rdd_index_beyond_eight_bits_is_ill_formed : (Instr.rdd 256).wellFormed = false := by decide

theorem test_rds_address_beyond_eight_bits_is_ill_formed : (Instr.rds 256).wellFormed = false := by decide

theorem test_largest_operands_are_well_formed :
    (Instr.rdd 255).wellFormed = true ∧ (Instr.rds 255).wellFormed = true := by decide

/-! ## Decoding: one word of each constructor, written out from `op[15:8] arg[7:0]` (R60, R64) -/

theorem test_decode_housekeeping :
    decode 0b00000000_00000000 = .ok .nop ∧ decode 0b00000001_00000000 = .ok .clr ∧
    decode 0b00000010_10000001 = .ok (.kpush 0x81) ∧ decode 0b00000011_01100010 = .ok (.mpush 0x62) ∧
    decode 0b00000100_00000000 = .ok .kclr ∧ decode 0b00000101_00000000 = .ok .mclr := by decide

theorem test_decode_whole_computations :
    decode 0b00010000_00000000 = .ok .sha256 ∧ decode 0b00010001_00000000 = .ok .hmac := by decide

theorem test_decode_stages :
    decode 0b00100000_00000000 = .ok .wload ∧ decode 0b00100001_00000000 = .ok .pad ∧
    decode 0b00100010_00000000 = .ok .compress ∧ decode 0b00100011_00000000 = .ok .finalize := by decide

theorem test_decode_reads :
    decode 0b00110000_00011111 = .ok (.rdd 31) ∧ decode 0b00110001_01011111 = .ok (.rds 0x5F) := by decide

/-- The reserved words of table DV. -/
theorem test_decode_reserved :
    (([0x0001, 0x01FF, 0x0600, 0x0F00, 0x1001, 0x1200, 0x2301, 0x2400, 0x3200, 0x8000, 0xFFFF] : List Nat).map
      fun w => decodeTableWord 16 w) = List.replicate 11 none := by decide +kernel

/-- No two rows of the opcode map select one word: they differ where both masks look. -/
theorem test_opcode_rows_do_not_overlap :
    opcodeTable.Pairwise fun r s => r.pattern &&& (r.mask &&& s.mask) ≠ s.pattern &&& (r.mask &&& s.mask) := by decide

/-! ## Word operations (section 2.1) -/

theorem test_add32 : add32 0xFFFFFFFF 1 = 0 ∧ add32 0x80000000 0x80000000 = 0 ∧ add32 0xFFFFFFFE 1 = 0xFFFFFFFF := by
  decide

theorem test_rotr :
    rotr 0x80000001 1 = 0xC0000000 ∧ rotr 0x80000001 31 = 3 ∧ rotr 0x80000001 32 = 0x80000001 ∧
    rotr 0x12345678 40 = 0x78123456 := by decide

theorem test_shr :
    shr 0x80000001 1 = 0x40000000 ∧ shr 0x80000001 32 = 0x80000001 ∧ shr 0x12345678 40 = 0x00123456 := by decide

theorem test_ch :
    ch 0x510E527F 0x9B05688C 0x1F83D9AB = 0x1F85C98C ∧ ch 0xAAAAAAAA 0xFFFFFFFF 0 = 0xAAAAAAAA := by decide

theorem test_maj :
    maj 0x6A09E667 0xBB67AE85 0x3C6EF372 = 0x3A6FE667 ∧ maj 0xF0F0F0F0 0xCCCCCCCC 0xAAAAAAAA = 0xE8E8E8E8 := by decide

theorem test_big_sigmas :
    bsig0 0x6A09E667 = 0xCE20B47E ∧ bsig1 0x510E527F = 0x3587272B ∧ bsig0 1 = 0x40080400 ∧ bsig1 1 = 0x04200080 := by
  decide

theorem test_small_sigmas :
    ssig0 0xFFFFFFFF = 0x1FFFFFFF ∧ ssig1 0xFFFFFFFF = 0x003FFFFF ∧ ssig0 0x61626380 = 0x940E90EF ∧
    ssig1 0x00000018 = 0x000F0000 := by decide

/-! ## Byte codec and constants (section 2.2) -/

theorem test_bytesToWords :
    bytesToWords [0x61, 0x62, 0x63, 0x80, 0, 0, 0, 0x18] = some [0x61626380, 0x00000018] ∧
    bytesToWords [1, 2, 3, 4, 5] = none := by decide

theorem test_partial_group :
    bytesToWordsWith .padRight [1, 2, 3, 4, 5] = [0x01020304, 0x05000000] ∧
    bytesToWordsWith .padLeft [1, 2, 3, 4, 5] = [0x01020304, 0x00000005] := by decide

theorem test_wordsToBytes : wordsToBytes [0x6A09E667, 1] = [0x6a, 0x09, 0xe6, 0x67, 0, 0, 0, 1] := by decide

theorem test_xorBytes :
    xorBytes [0x00, 0xff, 0x36, 0x5c] [0x36, 0x36, 0x36, 0x36] = some [0x36, 0xc9, 0x00, 0x6a] ∧
    xorBytes [0x00, 0xff] [0x36] = none := by decide

theorem test_constants_sum :
    K.toList.foldl (· + ·) 0 = 0x941D1755 ∧ K.toList.foldl (· ^^^ ·) 0 = 0x95C49CF5 ∧
    IV.toList.foldl (· + ·) 0 = 0x6EA8DF67 ∧ IV.toList.foldl (· ^^^ ·) 0 = 0xC62760EB := by decide +kernel

/-! ## Padding, schedule, rounds (sections 2.3 and 2.4) -/

/-- Columns `L`, `len(pad)`, `k` of table PD. -/
theorem test_padding_lengths :
    ([(0, 64, 55), (1, 64, 54), (54, 64, 1), (55, 64, 0), (56, 128, 63), (63, 128, 56), (64, 128, 55), (119, 128, 0),
      (120, 192, 63)] : List (Nat × Nat × Nat)).all
      (fun r => (r.1 + (padTail r.1).length == r.2.1) && (padZeros r.1 == r.2.2)) = true := by decide +kernel

theorem test_padding_of_the_longest_input :
    padZeros LIMIT = 56 ∧ (padTail LIMIT).drop 61 = [0xff, 0xff, 0xff, 0xf8] ∧
    LIMIT + (padTail LIMIT).length = 536870976 := by decide +kernel

theorem test_schedule_of_abc :
    (schedule (toBlock ([0x61, 0x62, 0x63] ++ padTail 3))).toList.take 20 =
      [0x61626380, 0, 0, 0, 0, 0, 0, 0, 0, 0, 0, 0, 0, 0, 0, 0x18, 0x61626380, 0x000f0000, 0x7da86405, 0x600003c6] ∧
    (schedule (toBlock ([0x61, 0x62, 0x63] ++ padTail 3)))[63] = 0x12b1edeb := by decide +kernel

/-- Vector RD0: round 0 of the message `abc`. -/
theorem test_round_zero_of_abc :
    round (WorkVars.ofHash IV) 0x428A2F98 0x61626380 =
      ⟨0x5d6aebcd, 0x6a09e667, 0xbb67ae85, 0x3c6ef372, 0xfa2a4622, 0x510e527f, 0x9b05688c, 0x1f83d9ab⟩ := by
  decide +kernel

/-! ## One step of each command -/

theorem test_nop : answers (exec .nop { State.reset with err := .eArg }) 0x00 0x00 .eArg = true := by decide

theorem test_clr_erases_the_buffers_and_err :
    after (exec .clr { abc with err := .eArg, t := 64 })
      (fun t => decide (t.msgbuf = [] ∧ t.msgLen = 0 ∧ t.err = .ok ∧ t.t = 0 ∧ t.h = IV)) = true := by decide +kernel

theorem test_kpush : after (exec (.kpush 0xFF) State.reset) (fun t => decide (t.keyLen = 1 ∧ t.keyBytes = [0xFF])) = true := by
  decide +kernel

theorem test_kpush_when_full : answers (exec (.kpush 5) full) 0x04 0x00 .eSize = true := by decide +kernel

theorem test_mpush_appends :
    after (exec (.mpush 0x64) abc) (fun t => decide (t.msgBytes = [0x61, 0x62, 0x63, 0x64])) = true := by decide +kernel

theorem test_mpush_when_full : answers (exec (.mpush 0x63) full) 0x04 0x00 .eSize = true := by decide +kernel

theorem test_kclr_keeps_the_bytes :
    after (exec .kclr { State.reset with keybuf := [(0, 7)], keyLen := 1 })
      (fun t => decide (t.keyLen = 0 ∧ t.keybuf = [(0, 7)])) = true := by decide +kernel

theorem test_mclr_keeps_the_bytes :
    after (exec .mclr abc) (fun t => decide (t.msgLen = 0 ∧ t.msgbuf = abc.msgbuf)) = true := by decide +kernel

/-- Vector S2: digest, `a..h`, `NBLK`, `BLK`, `WORKLEN`, `T`. -/
theorem test_sha256_of_abc :
    after (exec .sha256 abc) (fun t => decide (t.digestBytes =
        [0xba, 0x78, 0x16, 0xbf, 0x8f, 0x01, 0xcf, 0xea, 0x41, 0x41, 0x40, 0xde, 0x5d, 0xae, 0x22, 0x23,
          0xb0, 0x03, 0x61, 0xa3, 0x96, 0x17, 0x7a, 0x9c, 0xb4, 0x10, 0xff, 0x61, 0xf2, 0x00, 0x15, 0xad] ∧
      t.v = ⟨0x506E3058, 0xD39A2165, 0x04D24D6C, 0xB85E2CE9, 0x5EF50F24, 0xFB121210, 0x948D25B6, 0x961F4894⟩ ∧
      t.nblk = 1 ∧ t.blk = 1 ∧ t.workLen = 64 ∧ t.t = 64)) = true := by decide +kernel

/-- Vector M3: `HMAC` straight after reset. -/
theorem test_hmac_after_reset :
    after (exec .hmac State.reset) (fun t => decide (t.digestBytes =
        [0xb6, 0x13, 0x67, 0x9a, 0x08, 0x14, 0xd9, 0xec, 0x77, 0x2f, 0x95, 0xd7, 0x78, 0xc3, 0x5f, 0xc5,
          0xff, 0x16, 0x97, 0xc4, 0x93, 0x71, 0x56, 0x53, 0xc6, 0xc7, 0x12, 0x14, 0x42, 0x92, 0xc5, 0xad] ∧
      t.content .inner 4 = [0xe7, 0x2b, 0xbd, 0x4d] ∧ t.nblk = 2 ∧ t.workLen = 128)) = true := by decide +kernel

theorem test_wload :
    after (exec .wload { abc with phase := .finalized, blk := 1, nblk := 1 })
      (fun t => decide (t.workBytes = [0x61, 0x62, 0x63] ∧ t.phase = .init ∧ t.nblk = 0 ∧ t.blk = 0)) = true := by
  decide +kernel

theorem test_pad_straight_from_reset :
    after (exec .pad State.reset)
      (fun t => decide (t.work = [(0, 0x80)] ∧ t.workLen = 64 ∧ t.nblk = 1 ∧ t.phase = .padded)) = true := by
  decide +kernel

theorem test_pad_when_padded : answers (exec .pad paddedState) 0x02 0x00 .eSeq = true := by decide +kernel

/-- Program P1: the empty message. -/
theorem test_compress_of_the_empty_message :
    after (exec .compress paddedState) (fun t => decide (t.h =
        #v[0xE3B0C442, 0x98FC1C14, 0x9AFBF4C8, 0x996FB924, 0x27AE41E4, 0x649B934C, 0xA495991B, 0x7852B855] ∧
      t.v.a = 0x79A6DDDB ∧ t.blk = 1 ∧ t.phase = .compressing)) = true := by decide +kernel

theorem test_compress_when_no_block_is_left : answers (exec .compress allCompressed) 0x02 0x00 .eSeq = true := by
  decide +kernel

theorem test_finalize :
    after (exec .finalize allCompressed)
      (fun t => decide (t.phase = .finalized ∧ (t.digestBytes.take 4 = [0x6a, 0x09, 0xe6, 0x67]))) = true := by
  decide +kernel

theorem test_finalize_with_a_block_to_go : answers (exec .finalize oneBlockLeft) 0x02 0x00 .eSeq = true := by
  decide +kernel

/-- Table DV and program P5: the phase is checked before the index. -/
theorem test_rdd_after_reset : answers (exec (.rdd 32) State.reset) 0x02 0x00 .eSeq = true := by decide +kernel

theorem test_rdd_beyond_the_digest : answers (exec (.rdd 32) finished) 0x03 0x00 .eArg = true := by decide +kernel

/-- Vector SW on a state with its counters: `STATUS`, `MSGLEN`, `WORKLEN`, `NBLK`, `T`. -/
theorem test_window_of_counters :
    ([0x00, 0x0A, 0x0B, 0x0F, 0x13, 0x17, 0x18].map
        (window { abc with workLen := 64, nblk := 1, blk := 1, t := 64, phase := .finalized })) =
      [some 0x07, some 0, some 3, some 0x40, some 1, some 1, some 0x40] := by decide +kernel

theorem test_rds_reserved_address : answers (exec (.rds 0x02) State.reset) 0x03 0x00 .eArg = true := by decide +kernel

/-! ## The step -/

theorem test_reserved_word : answers (step (State.reset.withFetchWord 16 0x0600)) 0x01 0x00 .eIllegal = true := by
  decide +kernel

theorem test_reset_event :
    after (step { abc with err := .eSize, host := [.resetDuring 0x1100, .reset] })
      (fun t => decide (t = { State.reset with host := [.reset] })) = true := by decide +kernel

/-- The decoder and the step read the same word. -/
theorem test_fetch_word_runs_the_table_word :
    decodeTableWord 16 0x0361 = some (.mpush 0x61) ∧
    after (step (State.reset.withFetchWord 16 0x0361)) (fun t => decide (t.msgBytes = [0x61])) = true := by
  decide +kernel

/-- One step consumes one event: the reset that follows the command waits. -/
theorem test_one_step_consumes_one_event :
    after (step { State.reset with host := [.command 0x0361, .reset] })
      (fun t => decide (t.msgLen = 1 ∧ t.host = [.reset])) = true := by decide +kernel

/-! ## Host-side text (section 2.8) -/

theorem test_hex :
    bytesToHex [0x00, 0x0f, 0xf0] = ['0', '0', '0', 'f', 'f', '0'] ∧
    hexToBytes false ['4', '8', '6', '9'] = .ok [0x48, 0x69] ∧ hexToBytes true ['a', 'b', 'c'] = .error .invalidHex ∧
    hexToBytes true ['0', 'g'] = .error .invalidHex ∧ hexToBytes true ['A', 'B'] = .ok [0xab] ∧
    hexToBytes false ['A', 'B'] = .error .invalidHex := by decide +kernel

theorem test_stringToBytes : stringToBytes ['a', 'b', 'c'] = [0x61, 0x62, 0x63] := by decide

/-- A line of program P4. -/
theorem test_assembler :
    assembleLine ['K', 'P', 'U', 'S', 'H', ' ', '0', 'x', '0', 'b', ' ', ' ', ';', ' ', '0'] =
      some (some (.kpush 0x0b)) ∧
    assembleLine ['R', 'D', 'D', ' ', '3', '1'] = some (some (.rdd 31)) := by decide +kernel

theorem test_driver_reports_an_oversized_message :
    driverSha256 [1, 2, 3] full = some (.error .unsupportedInputSize, full) := by decide +kernel

/-- The status of a null input is negative whatever the free value, and the engine stays (R201). -/
theorem test_c_entry_with_a_null_message :
    (cEntry (.sha256 (.null 3) false)).status < 0 ∧
    cDriver (.sha256 (.null 3) false) abc = some (cEntry (.sha256 (.null 3) false), abc) :=
  ⟨cReturn_nullInput_neg _, rfl⟩

theorem test_response_text : responseText ⟨.eSeq, 0⟩ = ['-', '>', ' ', '0', '2', ':', '0', '0'] := by decide +kernel

/-! ## Witnesses: states and operands that meet the hypotheses of the statements -/

theorem witness_DecodeOfEncode : (Instr.kpush 0xFF).wellFormed = true ∧ (Instr.rds 255).wellFormed = true := by decide

theorem witness_EncodeOfDecode : decode 0x31FF = .ok (.rds 255) ∧ decode 0x2300 = .ok .finalize := by decide

theorem witness_DecodeSelectsTheRowTheWordMatches :
    decode 0x301F = .ok (.rdd 31) ∧ (Instr.rdd 0).row ∈ opcodeTable ∧
    (0x301F : CmdWord) &&& (Instr.rdd 0).row.mask = (Instr.rdd 0).row.pattern := by decide

/-- The three clauses, at words next to each other. -/
theorem witness_DecodeIsTotal :
    CmdWord.op 0x0600 ∉ ([0x00, 0x01, 0x02, 0x03, 0x04, 0x05, 0x10, 0x11, 0x20, 0x21, 0x22, 0x23, 0x30, 0x31] : List Byte) ∧
    (CmdWord.op 0x0501 ∈ ([0x05] : List Byte) ∧ CmdWord.op 0x0501 ∉ ([0x02, 0x03, 0x30, 0x31] : List Byte) ∧
      CmdWord.arg 0x0501 ≠ 0x00) ∧
    (CmdWord.op 0x0500 ∈ ([0x05] : List Byte) ∧ CmdWord.arg 0x0500 = 0x00) := by decide

theorem witness_ReservedWordRaisesIllegal :
    ({ State.reset with host := [.command 0x0001] } : State).host = .command 0x0001 :: [] ∧
    decode 0x0001 = .error .argumentNotZero ∧ decode 0x3200 = .error .unassignedOpcode := by decide

theorem witness_StepExecutesThePresentedCommand :
    ({ abc with host := [.command 0x1000, .reset] } : State).host = .command 0x1000 :: [.reset] ∧
    decode 0x1000 = .ok .sha256 ∧ abc.host = [] := by decide

theorem witness_ResetEventAndClrReset :
    ({ abc with host := [.reset] } : State).host = .reset :: [] ∧
    ({ abc with host := [.resetDuring 0x1000] } : State).host = .resetDuring 0x1000 :: [] := by decide

theorem witness_FailedCommandChangesOnlyErr :
    ∃ t r, exec (.rdd 0) State.reset = .next t ∧ t.resp = some r ∧ r.st ≠ .ok := ⟨_, _, rfl, rfl, by decide⟩

/-- A failure, a success that is not `CLR`, `CLR`, and a step that clears `ERR`. -/
theorem witness_ErrHoldsTheLatestFailure :
    (∃ t, exec (.rds 0x60) State.reset = .next t ∧ t.resp = some ⟨.eArg, 0⟩) ∧
    (∃ t, exec .nop State.reset = .next t ∧ t.resp = some ⟨.ok, 0⟩) ∧ (∃ t, exec .clr abc = .next t) ∧
    (∃ t, step { State.reset with err := .eSeq, host := [.command 0x0100] } = .next t ∧ t.err = .ok) :=
  ⟨⟨_, rfl, rfl⟩, ⟨_, rfl, rfl⟩, ⟨_, rfl⟩, ⟨_, rfl, rfl⟩⟩

theorem witness_EveryCommandReturnsOneResponse :
    State.reset.Inv ∧ ∃ t, exec (.rds 0x20) State.reset = .next t ∧ t.resp = some ⟨.ok, 0x6a⟩ :=
  ⟨inv_reset, _, rfl, by decide⟩

theorem witness_StatusCodesAndWhoRaisesThem :
    (∃ t, exec .pad paddedState = .next t ∧ t.resp = some ⟨.eSeq, 0⟩) ∧
    (∃ t, exec (.rdd 32) finished = .next t ∧ t.resp = some ⟨.eArg, 0⟩) ∧
    (∃ t, exec (.kpush 5) full = .next t ∧ t.resp = some ⟨.eSize, 0⟩) ∧
    ∃ t, step State.reset = .next t ∧ State.reset.err ≠ .eLen :=
  ⟨⟨_, rfl, rfl⟩, ⟨_, rfl, rfl⟩, ⟨_, rfl, rfl⟩, _, rfl, by decide⟩

/-- Each of the four cases, and a success next to each. -/
theorem witness_SeqErrorExactly :
    answers (exec .pad paddedState) 0x02 0 .eSeq = true ∧ answers (exec .pad State.reset) 0x00 0 .ok = true ∧
    answers (exec .compress allCompressed) 0x02 0 .eSeq = true ∧ answers (exec .compress finished) 0x02 0 .eSeq = true ∧
    answers (exec .finalize oneBlockLeft) 0x02 0 .eSeq = true ∧ answers (exec .finalize allCompressed) 0x00 0 .ok = true ∧
    answers (exec (.rdd 31) allCompressed) 0x02 0 .eSeq = true ∧ answers (exec (.rdd 31) finished) 0x00 0 .ok = true := by
  decide +kernel

/-- The edges of the reserved addresses and of the index. -/
theorem witness_ArgErrorExactly :
    answers (exec (.rdd 31) finished) 0x00 0 .ok = true ∧ answers (exec (.rdd 32) finished) 0x03 0 .eArg = true ∧
    answers (exec (.rds 0x01) State.reset) 0x00 0 .ok = true ∧ answers (exec (.rds 0x03) State.reset) 0x03 0 .eArg = true ∧
    answers (exec (.rds 0x18) State.reset) 0x00 0 .ok = true ∧ answers (exec (.rds 0x19) State.reset) 0x03 0 .eArg = true ∧
    answers (exec (.rds 0x1F) State.reset) 0x03 0 .eArg = true ∧ answers (exec (.rds 0x5F) State.reset) 0x00 0 .ok = true ∧
    answers (exec (.rds 0x60) State.reset) 0x03 0 .eArg = true ∧ answers (exec (.rds 0xFF) State.reset) 0x03 0 .eArg = true := by
  decide +kernel

theorem witness_SizeErrorExactlyAndCommandsThatNeverFail :
    answers (exec (.kpush 1) empty) 0x04 0 .eSize = true ∧ answers (exec (.mpush 1) empty) 0x04 0 .eSize = true ∧
    answers (exec (.mpush 1) abc) 0x00 0 .ok = true ∧ answers (exec .wload full) 0x00 0 .ok = true := by decide +kernel

theorem witness_StepKeepsTheInvariant :
    paddedState.Inv ∧ State.Inv { paddedState with host := [.command 0x2100] } ∧
    ∃ t, step { paddedState with host := [.command 0x2100] } = .next t :=
  ⟨inv_paddedState, ⟨inv_paddedState.spaces, inv_paddedState.ranges, inv_paddedState.blocks, inv_paddedState.errOk,
    inv_paddedState.digestOk⟩, _, rfl⟩

theorem witness_EngineIsNeverStuck : oneBlockLeft.Inv ∧ allCompressed.Inv ∧ finished.Inv :=
  ⟨inv_oneBlockLeft, inv_allCompressed, inv_finished⟩

theorem digestTrue_reset : State.reset.DigestTrue :=
  ⟨[], by decide, fun _ => rfl, fun h => absurd rfl h, rfl, by intro h; cases h⟩

/-- Also a state with the padded message in `WORK`. -/
theorem witness_StepKeepsReadableDigestsTrue :
    (State.reset.Inv ∧ State.reset.DigestTrue ∧ ∃ t, step State.reset = .next t) ∧
    paddedState.Inv ∧ paddedState.DigestTrue :=
  ⟨⟨inv_reset, digestTrue_reset, _, rfl⟩, inv_paddedState,
    [], by decide, (by intro h; cases h), fun _ => by decide +kernel, rfl, (by intro h; cases h)⟩

theorem witness_StepKeepsSpacesCanonical :
    (∀ sp, Memory.wf (abc.space sp)) ∧ ∃ t, step abc = .next t :=
  ⟨fun sp => by cases sp <;> decide, _, rfl⟩

theorem witness_NopKclrMclrResults : (0x01 : Byte) ≠ 0 ∧ (0xFF : Byte) ≠ 0 := by decide

/-- Full, and one byte below full. -/
theorem witness_KpushAppends :
    full.keyLen = full.params.keyMax.val ∧ ({ full with keyLen := 3 } : State).keyLen < full.params.keyMax.val := by
  decide

theorem witness_MpushAppends :
    full.msgLen = full.params.msgMax.val ∧ ({ full with msgLen := 1 } : State).msgLen < full.params.msgMax.val := by
  decide

theorem witness_WloadCapturesTheMessage :
    abc.msgLen ≤ abc.params.msgMax.val ∧ full.msgLen = full.params.msgMax.val := by decide

/-- Also at the longest content that can wait for `PAD`. -/
theorem witness_PadAppendsThePadding :
    paddedState.phase ≠ .init ∧ (State.reset.phase = .init ∧ State.reset.workLen ≤ seqMax State.reset.params) ∧
    ({ State.reset with workLen := 320 } : State).workLen = seqMax State.reset.params := by decide

theorem witness_CompressCompressesOneBlock :
    finished.phase = .finalized ∧ allCompressed.blk = allCompressed.nblk ∧
    (paddedState.Inv ∧ paddedState.phase = .padded ∧ paddedState.blk < paddedState.nblk) ∧
    (oneBlockLeft.Inv ∧ oneBlockLeft.phase = .compressing ∧ oneBlockLeft.blk < oneBlockLeft.nblk) :=
  ⟨by decide, by decide, ⟨inv_paddedState, by decide, by decide⟩, inv_oneBlockLeft, by decide, by decide⟩

theorem witness_FinalizeSerialisesTheHash :
    (oneBlockLeft.phase = .compressing ∧ oneBlockLeft.blk ≠ oneBlockLeft.nblk) ∧ paddedState.phase ≠ .compressing ∧
    (allCompressed.phase = .compressing ∧ allCompressed.blk = allCompressed.nblk) := by decide

theorem witness_Sha256CommandHashesTheMessage :
    abc.msgLen ≤ abc.params.msgMax.val ∧ full.msgLen = full.params.msgMax.val := by decide

theorem witness_HmacCommandComputesTheMac :
    (abc.keyLen ≤ abc.params.keyMax.val ∧ abc.msgLen ≤ abc.params.msgMax.val) ∧
    ({ abc with keyLen := 65 } : State).keyLen ≤ abc.params.keyMax.val ∧
    full.keyLen = full.params.keyMax.val ∧ full.msgLen = full.params.msgMax.val := by decide

/-- Each clause, at the last index and at the first beyond it. -/
theorem witness_RddReadsTheDigest :
    State.reset.phase ≠ .finalized ∧ (finished.phase = .finalized ∧ 32 ≤ 32) ∧
    (finished.phase = .finalized ∧ 31 < 32) ∧ 255 < 256 ∧ finished.Inv :=
  ⟨by decide, by decide, by decide, by decide, inv_finished⟩

/-- The ends of each address range of the window, and of the reserved ones. -/
theorem witness_RdsReadsTheWindow :
    (0x04 + 3 = 0x07 ∧ 3 < 4) ∧ (0x20 + 4 * (7 : Fin 8).val + 3 = 0x3F ∧ 0x40 + 4 * (7 : Fin 8).val + 3 = 0x5F) ∧
    ((0x19 ≤ 0x19 ∧ 0x19 ≤ 0x1F) ∧ 0x60 ≤ 0xFF ∧ 0xFF ≤ 0xFF) ∧ reservedAddress 0x18 = false ∧
    reservedAddress 0x20 = false ∧ (oneBlockLeft.Inv ∧ oneBlockLeft.workLen = 128 ∧ oneBlockLeft.nblk = 2) :=
  ⟨by decide, by decide, by decide, by decide, by decide, inv_oneBlockLeft, by decide, by decide⟩

theorem witness_WindowAfterReset :
    (0x01 ≤ 0x01 ∧ (0x04 ≤ 0x18 ∧ 0x18 ≤ 0x18) ∧ (0x40 ≤ 0x5F ∧ 0x5F ≤ 0x5F)) ∧ 31 < 32 ∧
    answers (exec (.rds 0x3F) State.reset) 0x00 0x19 .ok = true := by decide +kernel

/-- Two states with different operand spaces, and a read of each. -/
theorem witness_ReadsShowNoOperandSpace :
    let s := finished
    let s' := { finished with k0 := [(0, 1)], inner := [(3, 5)], work := [(0, 9)] }
    s' = { s with
      keybuf := s'.keybuf, msgbuf := s'.msgbuf, work := s'.work, k0 := s'.k0, inner := s'.inner, digest := s'.digest } ∧
    s'.digest = s.digest ∧ (∃ t, exec (.rdd 0) s = .next t) ∧ ∃ t, exec (.rdd 0) s' = .next t :=
  ⟨rfl, rfl, ⟨_, rfl⟩, _, rfl⟩

theorem witness_StateIsWrittenOnlyByItsCommands :
    (∃ t, exec (.kpush 1) State.reset = .next t) ∧ (∃ t, exec .pad State.reset = .next t) ∧
    Instr.kpush 1 ∉ [Instr.clr, .sha256, .hmac, .wload, .compress] ∧
    Instr.pad ∉ [Instr.clr, .sha256, .hmac, .finalize] ∧
    Instr.kpush 1 ∉ [Instr.clr, .sha256, .hmac, .wload, .pad, .compress, .finalize] ∧
    ∃ t, exec .pad { State.reset with err := .eArg } = .next t ∧ t.resp = some ⟨.ok, 0⟩ ∧ Instr.pad ≠ .clr :=
  ⟨⟨_, rfl⟩, ⟨_, rfl⟩, by decide, by decide, by decide, _, rfl, rfl, by decide⟩

theorem witness_PhaseTransitions :
    (finished.blk ≤ finished.nblk ∧ allCompressed.blk ≤ allCompressed.nblk) ∧ (∃ t, exec .wload finished = .next t) ∧ (∃ t, exec .pad State.reset = .next t) ∧
    (∃ t, exec .finalize allCompressed = .next t) ∧ ∃ t, exec .compress finished = .next t :=
  ⟨by decide, ⟨_, rfl⟩, ⟨_, rfl⟩, ⟨_, rfl⟩, _, rfl⟩

/-- A state with the invariant in each of the positions. -/
theorem witness_OneStageCommandIsAccepted :
    (State.reset.Inv ∧ State.reset.phase = .init) ∧ (paddedState.Inv ∧ paddedState.phase = .padded) ∧
    (oneBlockLeft.Inv ∧ oneBlockLeft.phase = .compressing ∧ oneBlockLeft.blk ≠ oneBlockLeft.nblk) ∧
    (allCompressed.Inv ∧ allCompressed.phase = .compressing ∧ allCompressed.blk = allCompressed.nblk) ∧
    (finished.Inv ∧ finished.phase = .finalized) :=
  ⟨⟨inv_reset, by decide⟩, ⟨inv_paddedState, by decide⟩, ⟨inv_oneBlockLeft, by decide, by decide⟩,
    ⟨inv_allCompressed, by decide, by decide⟩, inv_finished, by decide⟩

/-- A push and a failing command in a finished state. -/
theorem witness_FinishedResultSurvives :
    finished.phase = .finalized ∧ (∃ t, exec (.mpush 0x61) finished = .next t) ∧
    ∃ t r, exec .compress finished = .next t ∧ t.resp = some r ∧ r.st ≠ .ok :=
  ⟨by decide, ⟨_, rfl⟩, _, _, rfl, rfl, by decide⟩

theorem witness_HashstepEqualsSha256 : abc.msgLen ≤ abc.params.msgMax.val := by decide

theorem witness_Sha256ConversationReturnsTheDigest :
    finished.Inv ∧ ([0x61, 0x62, 0x63] : List Byte).length ≤ finished.params.msgMax.val := ⟨inv_finished, by decide⟩

theorem witness_HmacConversationReturnsTheMac :
    finished.Inv ∧ (List.replicate 131 (0xaa : Byte)).length ≤ finished.params.keyMax.val ∧
    ([0x61, 0x62, 0x63] : List Byte).length ≤ finished.params.msgMax.val := ⟨inv_finished, by decide +kernel, by decide⟩

/-- Two states that differ in `W`, `K0`, `INNER`, the unreadable `DIGEST` and a buffer byte beyond the content. -/
theorem witness_UnobservableStateStaysUnobserved :
    let s' := { State.reset with
      w := Vector.replicate 64 1, k0 := [(0, 1)], inner := [(0, 2)], digest := [(0, 3)], keybuf := [(7, 4)] }
    State.reset.Inv ∧ s'.Inv ∧ SameView State.reset s' ∧ State.reset ≠ s' := by
  refine ⟨inv_reset, ⟨fun sp => by cases sp <;> decide, by unfold State.RangesOk; decide,
    by unfold State.BlocksOk; decide, by decide, by intro h; cases h⟩, ⟨rfl, rfl, rfl, rfl, rfl, rfl, rfl, rfl, rfl, rfl,
    rfl, rfl, rfl, rfl, (by intro h; cases h), rfl, rfl⟩, by decide⟩

/-- Both sides of `LIMIT`. -/
theorem witness_PadLaws :
    LIMIT < (List.replicate (LIMIT + 1) (0 : Byte)).length ∧ (List.replicate LIMIT (0 : Byte)).length ≤ LIMIT :=
  ⟨by rw [List.length_replicate]; norm_num [LIMIT], List.length_replicate.le⟩

theorem witness_ScheduleRecurrence :
    (16 ≤ 16 ∧ 63 < 64) ∧ ∀ i : Fin 64, (Vector.replicate 64 (0 : Byte))[i] = 0 := by
  refine ⟨by decide, fun i => ?_⟩
  simp

theorem witness_AddRotateShiftUnits : 0 < 32 ∧ 31 < 32 := by decide

theorem witness_ChSelectsAndMajCounts : 0 < 32 ∧ 31 < 32 := by decide

theorem witness_BytesAndWordsAreInverse :
    ([1, 2, 3, 4, 5] : List Byte).length % 4 ≠ 0 ∧ ([1, 2, 3, 4] : List Byte).length % 4 = 0 := by decide

theorem witness_XorBytesLaws :
    ([0x00, 0xff] : List Byte).length ≠ ([0x36] : List Byte).length ∧
    ([0x00, 0xff] : List Byte).length = ([0x36, 0x36] : List Byte).length := by decide

/-- The two sides of 64 bytes, and `LIMIT`. -/
theorem witness_PrepareKeyLaws :
    (64 < (List.replicate 65 (0 : Byte)).length ∧ (List.replicate 65 (0 : Byte)).length ≤ LIMIT) ∧
    (List.replicate 64 (0 : Byte)).length = 64 ∧ (List.replicate LIMIT (0 : Byte)).length ≤ LIMIT :=
  ⟨by decide, List.length_replicate, List.length_replicate.le⟩

theorem witness_DigestAndMacAreThirtyTwoBytes :
    (List.replicate LIMIT (0 : Byte)).length ≤ LIMIT ∧ 64 + (List.replicate (LIMIT - 64) (0 : Byte)).length ≤ LIMIT ∧
    LIMIT < (List.replicate (LIMIT + 1) (0 : Byte)).length :=
  ⟨List.length_replicate.le, by rw [List.length_replicate]; norm_num [LIMIT],
    by rw [List.length_replicate]; norm_num [LIMIT]⟩

theorem witness_KeysWithOnePreparedKeyShareTheMac :
    ([0x6b] : List Byte).length + 63 ≤ 64 ∧ 64 < (List.replicate 65 (0 : Byte)).length ∧
    ∃ d, sha256 (List.replicate 65 0) = some d := ⟨by decide, by decide, _, sha256_of_le (by rw [List.length_replicate]; norm_num [LIMIT])⟩

/-- Lower case, and upper case where `HEX_UPPER_OK`. -/
theorem witness_HexRoundTrip :
    hexToBytes false ['a', 'b'] = .ok [0xab] ∧ hexToBytes true ['A', 'B'] = .ok [0xab] := by decide +kernel

theorem witness_HexToBytesLaws : hexToBytes false ['0', 'f', 'f', '0'] = .ok [0x0f, 0xf0] := by decide +kernel

theorem witness_AssemblerReadsItsOwnText : (Instr.mpush 0x0a).wellFormed = true ∧ (Instr.rdd 255).wellFormed = true := by
  decide

/-- Both sides of the place where the small sigmas shift zeros in. -/
theorem witness_SigmaFunctionsBitByBit : 28 < 32 ∧ 28 + 3 < 32 ∧ 29 < 32 ∧ ¬(29 + 3 < 32) := by decide

theorem witness_Sha256FoldsCompressOverTheBlocks :
    LIMIT < (List.replicate (LIMIT + 1) (0 : Byte)).length ∧ (List.replicate LIMIT (0 : Byte)).length ≤ LIMIT ∧
    0 < (([0x61, 0x62, 0x63] : List Byte) ++ padTail 3).length / 64 :=
  ⟨by rw [List.length_replicate]; norm_num [LIMIT], List.length_replicate.le, by decide +kernel⟩

theorem witness_HmacIsTheTwoPassConstruction :
    (List.replicate 64 (0x0b : Byte)).length = 64 ∧ (List.replicate LIMIT (0 : Byte)).length ≤ LIMIT ∧
    64 + (List.replicate (LIMIT - 64) (0 : Byte)).length ≤ LIMIT :=
  ⟨List.length_replicate, List.length_replicate.le, by rw [List.length_replicate]; norm_num [LIMIT]⟩

/-- A null message, a null key, and inputs within the capacities of an engine with the invariant. -/
theorem witness_CEntryPointsReturnZeroOrNegative :
    (0 < 1 ∧ ∃ o, CCall.sha256 (.null 1) false = .sha256 (.null 1) o) ∧
    (∃ o x, CCall.hmacSha256 (.null 1) (.bytes []) true = .hmacSha256 (.null 1) x o) ∧
    (([0x61] : List Byte).length ≤ LIMIT ∧ 64 + ([0x61] : List Byte).length ≤ LIMIT) ∧
    (finished.Inv ∧ ([0x61] : List Byte).length ≤ finished.params.keyMax.val ∧
      ([0x61] : List Byte).length ≤ finished.params.msgMax.val) ∧ Status.eSeq ≠ .ok :=
  ⟨⟨by decide, _, rfl⟩, ⟨_, _, rfl⟩, by norm_num [LIMIT], ⟨inv_finished, by decide, by decide⟩, by decide⟩

end Sys2Proof.Tests
end

section
/-! PROOF. The phase transitions of 10_state.md R17. -/

namespace Sys2Proof.Machine

/-! ## The converse of the inversion: a command whose conditions hold answers next -/

/-- Where the conditions of a success hold, the command answers it. -/
theorem Succeeds.exec_eq {i : Instr} {s u : State} {d : Byte} (h : Succeeds i s u d) :
    exec i s = .next (u.responded d) := by
  cases h with
  | nop | clr | kclr | mclr => rfl
  | kpush h =>
    rw [exec, execKpush, if_neg (by omega), memWrite_of_le (by simpa [Space.size] using h)]
    rfl
  | mpush h =>
    rw [exec, execMpush, if_neg (by omega), memWrite_of_le (by simpa [Space.size] using h)]
    rfl
  | sha256 hl h =>
    rw [exec, execSha256, memRead_of_le _ (by simpa [Space.size] using hl)]
    exact congrArg (andThen · (respond 0)) h
  | hmac h => exact congrArg (andThen · (respond 0)) h
  | wload hl h =>
    rw [exec, execWload, memRead_of_le _ (by simpa [Space.size] using hl)]
    exact congrArg (andThen · (respond 0)) h
  | pad hp h =>
    rw [exec, execPad, canPad, if_pos (decide_eq_true hp), h]
    rfl
  | compress hp hb h =>
    rw [exec, execCompress, canCompress, if_pos (decide_eq_true ⟨hp, hb⟩), h]
    rfl
  | finalize hp hb h =>
    rw [exec, execFinalize, canFinalize, if_pos (decide_eq_true ⟨hp, hb⟩), h]
    rfl
  | rdd hp hi =>
    rw [exec, execRdd, dvalid, if_pos (decide_eq_true hp), digestIndex, if_pos (decide_eq_true hi)]
    rfl
  | rds h =>
    rw [exec, execRds, h]
    rfl

theorem runCommands_singleton (i : Instr) (s : State) : runCommands [i] s = exec i s := by
  rw [runCommands]
  cases exec i s <;> rfl

/-! ## The transitions -/

@[simp] theorem State.raised_phase (s : State) (e : Status) : (s.raised e).phase = s.phase := rfl

@[simp] theorem State.responded_phase (s : State) (d : Byte) : (s.responded d).phase = s.phase := rfl

/-- The phase after a command, as R17 lists the transitions. -/
def phaseAfter (i : Instr) (s : State) : Phase :=
  if i = .clr ∨ i = .wload then .init
  else if i = .sha256 ∨ i = .hmac then .finalized
  else if i = .pad ∧ s.phase = .init then .padded
  else if i = .compress ∧ (s.phase = .padded ∨ s.phase = .compressing) ∧ s.blk < s.nblk then .compressing
  else if i = .finalize ∧ s.phase = .compressing ∧ s.blk = s.nblk then .finalized
  else s.phase

/-- A command that fails takes none of the transitions. -/
theorem Fails.phaseAfter_eq {i : Instr} {s : State} {e : Status} (h : Fails i s e) : phaseAfter i s = s.phase := by
  cases h with
  | pad h => simp [phaseAfter, h]
  | compress h =>
    have h' : ¬((s.phase = .padded ∨ s.phase = .compressing) ∧ s.blk < s.nblk) := fun ⟨hp, hb⟩ => h ⟨hp, hb.ne⟩
    simp [phaseAfter, h']
  | finalize h => simp [phaseAfter, h]
  | rddPhase _ | rddIndex _ _ | rds _ | kpush _ | mpush _ => simp [phaseAfter]

/-- A command that succeeds takes its transition, if it has one. -/
theorem Succeeds.phase_eq {i : Instr} {s u : State} {d : Byte} (h : Succeeds i s u d) (hb : s.blk ≤ s.nblk) :
    u.phase = phaseAfter i s := by
  cases h with
  | clr => simp [phaseAfter]
  | nop | kclr | mclr | kpush _ | mpush _ | rdd _ _ | rds _ => simp [phaseAfter]
  | sha256 _ h => simp [phaseAfter, (uHash_frame h).2]
  | hmac h => simp [phaseAfter, (uHmac_frame h).2]
  | wload _ h =>
    obtain ⟨-, -, -, -, -, -, -, -, -, hu⟩ := uInit_frame h
    simp [phaseAfter, hu]
  | pad hp h =>
    obtain ⟨-, -, -, -, -, -, -, -, -, hu⟩ := uPad_frame h
    simp [phaseAfter, hp, hu]
  | compress hp hne h =>
    obtain ⟨-, -, -, -, -, -, hu⟩ := uCompress_frame h
    simp [phaseAfter, hp, Nat.lt_of_le_of_ne hb hne, hu]
  | finalize hp he h =>
    obtain ⟨-, -, -, -, -, -, -, -, -, hu⟩ := uFinalize_frame h
    simp [phaseAfter, hp, he, hu]

theorem exec_phase {i : Instr} {s t : State} (hb : s.blk ≤ s.nblk) (h : exec i s = .next t) :
    t.phase = phaseAfter i s := by
  rcases exec_next h with ⟨e, hf, rfl⟩ | ⟨u, d, hs, rfl⟩
  · exact hf.phaseAfter_eq.symm
  · exact hs.phase_eq hb

/-! ## From reset to each phase -/

/-- `PAD` right after reset pads the empty message to one block, of which none is compressed. -/
theorem exec_pad_resetOf (p : Params) :
    ∃ t, exec .pad (State.resetOf p) = .next t ∧ t.phase = .padded ∧ t.blk = 0 ∧ t.nblk = 1 := by
  have hu := uPad_eq (s := State.resetOf p) (Nat.zero_le _)
  have hn : (0 + (padTail 0).length) / 64 = 1 := by decide
  exact ⟨_, (Succeeds.pad rfl hu).exec_eq, rfl, rfl, hn⟩

/-- `COMPRESS` of the first block is in order: every `WORK` holds it. -/
theorem exec_compress_of_first_block {s : State} (hp : s.phase = .padded) (hb : s.blk = 0) (hn : s.nblk = 1) :
    ∃ t, exec .compress s = .next t ∧ t.phase = .compressing := by
  have hmax : 64 * s.blk + 64 ≤ workMax s.params := by
    have := seqMax_add_nine_le_workMax s.params
    have := outer_le_seqMax s.params
    omega
  exact ⟨_, (Succeeds.compress (Or.inl hp) (by omega) (uCompress_eq hmax)).exec_eq, rfl⟩

theorem exec_sha256_resetOf (p : Params) : ∃ t, exec .sha256 (State.resetOf p) = .next t ∧ t.phase = .finalized := by
  have hu := uHash_eq (m := (State.resetOf p).msgBytes) (s := State.resetOf p) (Nat.zero_le _) rfl rfl
  exact ⟨_, (Succeeds.sha256 (Nat.zero_le _) hu).exec_eq, rfl⟩

/-- Commands from reset that reach a phase. -/
def commandsTo : Phase → List Instr
  | .init => []
  | .padded => [.pad]
  | .compressing => [.pad, .compress]
  | .finalized => [.sha256]

theorem runCommands_commandsTo (p : Params) (ph : Phase) :
    ∃ t, runCommands (commandsTo ph) (State.resetOf p) = .next t ∧ t.phase = ph := by
  obtain ⟨t, ht, hp, hb, hn⟩ := exec_pad_resetOf p
  cases ph with
  | init => exact ⟨_, rfl, rfl⟩
  | padded => exact ⟨t, by rw [commandsTo, runCommands_singleton, ht], hp⟩
  | compressing =>
    obtain ⟨u, hu, hpu⟩ := exec_compress_of_first_block hp hb hn
    exact ⟨u, by rw [commandsTo, runCommands, ht, andThen_next, runCommands_singleton, hu], hpu⟩
  | finalized =>
    obtain ⟨u, hu, hpu⟩ := exec_sha256_resetOf p
    exact ⟨u, by rw [commandsTo, runCommands_singleton, hu], hpu⟩

/-- Settles O36: each command fails and keeps the phase or succeeds and takes its transition, and `commandsTo` reaches
each phase. -/
theorem phaseTransitions : Obligations.PhaseTransitions :=
  ⟨⟨rfl, rfl, rfl, rfl⟩, fun _ _ _ hb h => exec_phase hb h,
    fun p ph => ⟨commandsTo ph, runCommands_commandsTo p ph⟩⟩

end Sys2Proof.Machine
end

section
/-! PROOF. The decoding algorithm (30_encoding.md R60, R61, R65): the decoder and the encoding, said once. -/

namespace Sys2Proof

/-- The fourteen assigned opcodes (R64). -/
def assignedOps : List Byte :=
  [0x00, 0x01, 0x02, 0x03, 0x04, 0x05, 0x10, 0x11, 0x20, 0x21, 0x22, 0x23, 0x30, 0x31]

/-- The opcodes whose command takes an argument (R61). -/
def argumentOps : List Byte := [0x02, 0x03, 0x30, 0x31]

theorem mem_assignedOps_iff (op : Byte) :
    op ∈ assignedOps ↔
      op.toNat ∈ [0x00, 0x01, 0x02, 0x03, 0x04, 0x05, 0x10, 0x11, 0x20, 0x21, 0x22, 0x23, 0x30, 0x31] := by
  simp [assignedOps, ← BitVec.toNat_inj]

theorem mem_argumentOps_iff (op : Byte) : op ∈ argumentOps ↔ op.toNat ∈ [0x02, 0x03, 0x30, 0x31] := by
  simp [argumentOps, ← BitVec.toNat_inj]

/-! ## The fields of an encoding -/

theorem op_encode_mem (i : Instr) : CmdWord.op (encode i) ∈ assignedOps := by
  cases i <;> simp [encode, assignedOps]

/-- Only a command with an argument has a non-zero low byte. -/
theorem op_encode_mem_argumentOps {i : Instr} (h : CmdWord.arg (encode i) ≠ 0) :
    CmdWord.op (encode i) ∈ argumentOps := by
  cases i with
  | kpush _ | mpush _ | rdd _ | rds _ => simp [encode, argumentOps]
  | nop | clr | kclr | mclr | sha256 | hmac | wload | pad | compress | finalize => exact absurd (arg_c16 _ _) h

/-- The opcode of a command is the one its row shows. -/
theorem op_row_pattern (i : Instr) : CmdWord.op i.row.pattern = CmdWord.op (encode i) := by
  cases i <;> simp only [encode, op_c16, Instr.row] <;> decide

/-! ## The decoder's three answers (R65) -/

/-- The answer the decoding algorithm gives to a word. -/
inductive Decodes (c : CmdWord) : Except DecodeError Instr → Prop
  | unassigned (h : CmdWord.op c ∉ assignedOps) : Decodes c (.error .unassignedOpcode)
  | argument (h : CmdWord.op c ∈ assignedOps) (hn : CmdWord.op c ∉ argumentOps) (ha : CmdWord.arg c ≠ 0) :
    Decodes c (.error .argumentNotZero)
  | command {i} (hw : i.wellFormed = true) (he : encode i = c) : Decodes c (.ok i)

/-- The arm of a command without an argument: reserved or, with `arg` = 0x00, that command. -/
theorem Decodes.of_noArgument {c : CmdWord} {i : Instr} (h : (CmdWord.op c).toNat = (CmdWord.op (encode i)).toNat)
    (hi : i.wellFormed = true ∧ CmdWord.op (encode i) ∉ argumentOps ∧ CmdWord.arg (encode i) = 0) :
    Decodes c (noArgument (CmdWord.arg c) i) := by
  obtain ⟨hw, hn, ha⟩ := hi
  have hop := BitVec.eq_of_toNat_eq h
  unfold noArgument
  split
  · exact .command hw (by rw [← c16_op_arg c, ← c16_op_arg (encode i), hop, ha, ‹CmdWord.arg c = 0›])
  · exact .argument (hop ▸ op_encode_mem i) (hop ▸ hn) ‹_›

/-- The arm of a command with an argument: the command whose encoding has both fields of the word. -/
theorem Decodes.of_argument {c : CmdWord} {i : Instr} (h : (CmdWord.op c).toNat = (CmdWord.op (encode i)).toNat)
    (ha : CmdWord.arg (encode i) = CmdWord.arg c) (hw : i.wellFormed = true) : Decodes c (.ok i) :=
  .command hw (by rw [← c16_op_arg c, ← c16_op_arg (encode i), BitVec.eq_of_toNat_eq h, ha])

/-- The decoder gives the answer of the algorithm to every word. -/
theorem decodes_decode (c : CmdWord) : Decodes c (decode c) := by
  unfold decode
  split
  case h_3 h => exact .of_argument (by simpa [encode] using h) (by simp [encode]) rfl
  case h_4 h => exact .of_argument (by simpa [encode] using h) (by simp [encode]) rfl
  case h_13 h => exact .of_argument (by simpa [encode] using h) (by simp [encode]) (decide_eq_true (BitVec.isLt _))
  case h_14 h => exact .of_argument (by simpa [encode] using h) (by simp [encode]) (decide_eq_true (BitVec.isLt _))
  case h_15 => exact .unassigned (by simpa [mem_assignedOps_iff] using by tauto)
  all_goals exact .of_noArgument ‹_› (by decide)

/-- A command that a word decodes to is well-formed, and the word is its encoding. -/
theorem encode_of_decode {c : CmdWord} {i : Instr} (h : decode c = .ok i) : i.wellFormed = true ∧ encode i = c := by
  have hd := decodes_decode c
  rw [h] at hd
  cases hd with
  | command hw he => exact ⟨hw, he⟩

theorem decode_encode {i : Instr} (h : i.wellFormed = true) : decode (encode i) = .ok i := by
  cases i with
  | kpush _ | mpush _ => simp [decode, encode]
  | rdd i | rds i =>
    have hi : i < 256 := of_decide_eq_true h
    simp [decode, encode, Nat.mod_eq_of_lt hi]
  | nop | clr | kclr | mclr | sha256 | hmac | wload | pad | compress | finalize => rfl

/-- Each of the two errors says why the word is reserved (R65). -/
theorem decode_error_iff (c : CmdWord) (e : DecodeError) :
    decode c = .error e ↔
      (CmdWord.op c ∉ assignedOps ∧ e = .unassignedOpcode) ∨
        (CmdWord.op c ∈ assignedOps ∧ CmdWord.op c ∉ argumentOps ∧ CmdWord.arg c ≠ 0 ∧ e = .argumentNotZero) := by
  have hd := decodes_decode c
  generalize decode c = r at hd ⊢
  cases hd with
  | unassigned h => simp [h, eq_comm]
  | argument h hn ha => simp only [h, hn, ha, Except.error.injEq, ne_eq]; tauto
  | @command i hw he =>
    subst he
    simpa [op_encode_mem] using fun hn ha => absurd (op_encode_mem_argumentOps ha) hn

/-- Settles O4: the two reasons of `decode_error_iff` fail exactly for the words that are some command's encoding. -/
theorem decodeIsTotal : Obligations.DecodeIsTotal := by
  intro c
  refine ⟨fun h => (decode_error_iff c _).2 (.inl ⟨h, rfl⟩),
    fun h hn ha => (decode_error_iff c _).2 (.inr ⟨h, hn, ha, rfl⟩), fun h ha => ?_⟩
  cases hd : decode c with
  | error e =>
    rcases (decode_error_iff c e).1 hd with ⟨h', -⟩ | ⟨-, hn, ha', -⟩
    · exact absurd h h'
    · exact absurd ha (not_or.2 ⟨hn, ha'⟩)
  | ok i =>
    obtain ⟨-, rfl⟩ := encode_of_decode hd
    exact ⟨i, rfl, op_row_pattern i, rfl⟩

end Sys2Proof
end

section
/-! PROOF. The opcode map (30_encoding.md R64): a word is decoded to a command of the row it matches. -/

namespace Sys2Proof

/-- The command of the same row with its argument, if it takes one, replaced. -/
def Instr.withArg (b : Byte) : Instr → Instr
  | .kpush _ => .kpush b
  | .mpush _ => .mpush b
  | .rdd _ => .rdd b.toNat
  | .rds _ => .rds b.toNat
  | i => i

@[simp] theorem Instr.withArg_row (b : Byte) (i : Instr) : (i.withArg b).row = i.row := by
  cases i <;> rfl

@[simp] theorem Instr.withArg_wellFormed (b : Byte) (i : Instr) : (i.withArg b).wellFormed = true := by
  cases i <;> simp [Instr.withArg, Instr.wellFormed, b.isLt]

theorem op_and (c d : CmdWord) : CmdWord.op (c &&& d) = CmdWord.op c &&& CmdWord.op d := BitVec.extractLsb'_and

theorem arg_and (c d : CmdWord) : CmdWord.arg (c &&& d) = CmdWord.arg c &&& CmdWord.arg d := BitVec.extractLsb'_and

/-- `0xFF` is the all-ones byte. -/
theorem and_allOnes_byte (b : Byte) : b &&& 0xFF = b := BitVec.and_allOnes

/-- Every mask covers `op`. -/
theorem op_row_mask (i : Instr) : CmdWord.op i.row.mask = 0xFF := by
  cases i <;> simp only [Instr.row] <;> decide

/-- No pattern carries an argument. -/
theorem arg_row_pattern (i : Instr) : CmdWord.arg i.row.pattern = 0 := by
  cases i <;> simp only [Instr.row] <;> decide

/-- A low byte that the mask of the row lets pass is the argument of one of the row's commands. -/
theorem encode_withArg {i : Instr} {b : Byte} (h : b &&& CmdWord.arg i.row.mask = 0) :
    encode (i.withArg b) = c16 (CmdWord.op (encode i)) b := by
  cases i with
  | kpush _ | mpush _ | rdd _ | rds _ => simp [encode, Instr.withArg]
  | nop | clr | kclr | mclr | sha256 | hmac | wload | pad | compress | finalize =>
    obtain rfl : b = 0 := (and_allOnes_byte b).symm.trans h
    rfl

/-- A word that matches a row is the encoding of the row's command with the word's low byte. -/
theorem encode_withArg_of_match {c : CmdWord} {i : Instr} (h : c &&& i.row.mask = i.row.pattern) :
    encode (i.withArg (CmdWord.arg c)) = c := by
  have hop : CmdWord.op c = CmdWord.op (encode i) := by
    rw [← op_row_pattern, ← h, op_and, op_row_mask, and_allOnes_byte]
  have harg : CmdWord.arg c &&& CmdWord.arg i.row.mask = 0 := by rw [← arg_and, h, arg_row_pattern]
  rw [encode_withArg harg, ← hop, c16_op_arg]

/-- The statement about one row holds of every command. -/
theorem tableRow_statement : ∀ i : Instr, Laws.TableRow.Statement i
  | .nop => Laws.TableRow.nop
  | .clr => Laws.TableRow.clr
  | .kpush b => Laws.TableRow.kpush b
  | .mpush b => Laws.TableRow.mpush b
  | .kclr => Laws.TableRow.kclr
  | .mclr => Laws.TableRow.mclr
  | .sha256 => Laws.TableRow.sha256
  | .hmac => Laws.TableRow.hmac
  | .wload => Laws.TableRow.wload
  | .pad => Laws.TableRow.pad
  | .compress => Laws.TableRow.compress
  | .finalize => Laws.TableRow.finalize
  | .rdd k => Laws.TableRow.rdd k
  | .rds a => Laws.TableRow.rds a

/-- The encoding of a command matches the command's own row. -/
theorem row_mem_and_encode_match {i : Instr} (h : i.wellFormed = true) :
    i.row ∈ opcodeTable ∧ encode i &&& i.row.mask = i.row.pattern := by
  obtain ⟨hmem, hmatch, -⟩ := tableRow_statement i h
  exact ⟨hmem, hmatch⟩

/-- Settles O3: a decoded word is an encoding, which matches its row; a word that matches a row is the encoding of the
row's command with the word's low byte. -/
theorem decodeSelectsTheRowTheWordMatches : Obligations.DecodeSelectsTheRowTheWordMatches := by
  refine ⟨rfl, fun c i h => ?_, fun c r hr hc => ?_⟩
  · obtain ⟨hw, rfl⟩ := encode_of_decode h
    exact row_mem_and_encode_match hw
  · obtain ⟨i, -, rfl⟩ := List.mem_map.1 hr
    refine ⟨i.withArg (CmdWord.arg c), ?_, i.withArg_row _⟩
    have hd := decode_encode (i.withArg_wellFormed (CmdWord.arg c))
    rwa [encode_withArg_of_match hc] at hd

end Sys2Proof
end

section
/-! PROOF. The reserved words and what a step does with one (30_encoding.md R66). -/

namespace Sys2Proof.Machine

/-- The unassigned opcodes are the four ranges that R66 lists. -/
theorem not_mem_assignedOps_iff (op : Byte) :
    op ∉ assignedOps ↔
      (0x06 ≤ op.toNat ∧ op.toNat ≤ 0x0F) ∨ (0x12 ≤ op.toNat ∧ op.toNat ≤ 0x1F) ∨
        (0x24 ≤ op.toNat ∧ op.toNat ≤ 0x2F) ∨ 0x32 ≤ op.toNat := by
  simp only [mem_assignedOps_iff, List.mem_cons, List.not_mem_nil, or_false]
  omega

/-- The opcodes without an argument are the ten that R66 lists. -/
theorem mem_operandless_iff (op : Byte) :
    op.toNat ∈ [0x00, 0x01, 0x04, 0x05, 0x10, 0x11, 0x20, 0x21, 0x22, 0x23] ↔
      op ∈ assignedOps ∧ op ∉ argumentOps := by
  simp only [mem_assignedOps_iff, mem_argumentOps_iff, List.mem_cons, List.not_mem_nil, or_false]
  omega

/-- A word is reserved for one of the two reasons of R65. -/
theorem exists_decode_error_iff (c : CmdWord) :
    (∃ e, decode c = .error e) ↔
      CmdWord.op c ∉ assignedOps ∨
        (CmdWord.op c ∈ assignedOps ∧ CmdWord.op c ∉ argumentOps) ∧ CmdWord.arg c ≠ 0 := by
  simp only [decode_error_iff, exists_or, exists_and_left, exists_eq, and_true, and_assoc]

theorem step_of_reserved {s : State} {c : CmdWord} {rest : List HostEvent} {e : DecodeError}
    (hs : s.host = .command c :: rest) (h : decode c = .error e) :
    step s = .next ({ s with host := rest }.raised .eIllegal) := by
  rw [step_event hs, acceptEvent, acceptCommand, h, raise_eq]

/-- Settles O5: the two reasons to be reserved, by number, and the step on an error of the decoder. -/
theorem reservedWordRaisesIllegal : Obligations.ReservedWordRaisesIllegal := by
  refine ⟨fun c => ?_, fun s c rest e => step_of_reserved⟩
  rw [exists_decode_error_iff, not_mem_assignedOps_iff, mem_operandless_iff]

end Sys2Proof.Machine
end

section
/-! PROOF. Every command answers (30_encoding.md R62): progress under the invariant. -/

namespace Sys2Proof.Machine

/-- Where the condition of a failure holds, the command raises its error. -/
theorem Fails.exec_eq {i : Instr} {s : State} {e : Status} (h : Fails i s e) : exec i s = .next (s.raised e) := by
  cases h with
  | pad h => rw [exec, execPad, canPad, if_neg (by simpa using h), raise_eq]
  | compress h => rw [exec, execCompress, canCompress, if_neg (by simpa only [decide_eq_true_eq] using h), raise_eq]
  | finalize h => rw [exec, execFinalize, canFinalize, if_neg (by simpa only [decide_eq_true_eq] using h), raise_eq]
  | rddPhase h => rw [exec, execRdd, dvalid, if_neg (by simpa using h), raise_eq]
  | rddIndex h hi =>
    rw [exec, execRdd, dvalid, if_pos (decide_eq_true h), digestIndex, if_neg (by simpa using hi), raise_eq]
  | rds h => rw [exec, execRds, h, raise_eq]
  | kpush h => rw [exec, execKpush, if_pos h, raise_eq]
  | mpush h => rw [exec, execMpush, if_pos h, raise_eq]

/-- Only a read answers data. -/
theorem Succeeds.read_of_data_ne_zero {i : Instr} {s u : State} {d : Byte} (h : Succeeds i s u d) (hd : d ≠ 0) :
    (∃ k, i = .rdd k) ∨ ∃ a, i = .rds a := by
  cases h with
  | rdd _ _ => exact .inl ⟨_, rfl⟩
  | rds _ => exact .inr ⟨_, rfl⟩
  | nop | clr | kclr | mclr | kpush _ | mpush _ | sha256 _ _ | hmac _ | wload _ _ | pad _ _ | compress _ _ _
  | finalize _ _ _ => exact absurd rfl hd

/-- The HMAC controller runs through: its three passes stay inside the capacities (R144). -/
theorem uHmac_progress {s : State} (hk : s.keyLen ≤ s.params.keyMax.val) (hm : s.msgLen ≤ s.params.msgMax.val) :
    ∃ t, uHmac s = .next t := by
  obtain ⟨a, ha, hf, -⟩ := uKprep_spec hk
  obtain ⟨ik, hik, hil⟩ := xorBytes_k0 (mask := ipad64) a (by simp [ipad64])
  obtain ⟨b, hb, -⟩ := uInner_spec (s := a) (by rwa [hf.msgLen, hf.params]) hik hil
  obtain ⟨ok, hok, hol⟩ := xorBytes_k0 (mask := opad64) b (by simp [opad64])
  have hlen : (ok ++ b.content .inner 32).length ≤ seqMax b.params := by
    rw [List.length_append, hol, State.content_length]
    exact outer_le_seqMax _
  obtain ⟨t, ht, -⟩ := uHash_spec hlen
  exact ⟨t, by rw [uHmac, ha, andThen_next, hb, andThen_next, uOuter_eq hok, ht]⟩

/-- A block still to be compressed lies inside `WORK`. -/
theorem block_le_workMax {s : State} (hr : s.RangesOk) (hb : s.BlocksOk) (hp : s.phase ≠ .init)
    (hne : s.blk ≠ s.nblk) : 64 * s.blk + 64 ≤ workMax s.params := by
  obtain ⟨-, -, hw, -⟩ := hr
  obtain ⟨hle, -, hn, -⟩ := hb
  obtain ⟨hn, -⟩ := hn hp
  omega

/-- Progress: in a state with the invariant every command fails with its error or succeeds. -/
theorem fails_or_succeeds (i : Instr) {s : State} (h : s.Inv) :
    (∃ e, Fails i s e) ∨ ∃ u d, Succeeds i s u d := by
  obtain ⟨hkey, hmsg, -, -, hwork⟩ := h.ranges
  have hseq : s.msgBytes.length ≤ seqMax s.params := by
    have := msgMax_le_seqMax s.params
    rw [State.msgBytes_length]
    omega
  cases i with
  | nop => exact .inr ⟨_, _, .nop⟩
  | clr => exact .inr ⟨_, _, .clr⟩
  | kclr => exact .inr ⟨_, _, .kclr⟩
  | mclr => exact .inr ⟨_, _, .mclr⟩
  | kpush b =>
    by_cases hfull : s.keyLen = s.params.keyMax.val
    · exact .inl ⟨_, .kpush hfull⟩
    · exact .inr ⟨_, _, .kpush (by omega)⟩
  | mpush b =>
    by_cases hfull : s.msgLen = s.params.msgMax.val
    · exact .inl ⟨_, .mpush hfull⟩
    · exact .inr ⟨_, _, .mpush (by omega)⟩
  | sha256 =>
    obtain ⟨u, hu, -⟩ := uHash_spec hseq
    exact .inr ⟨_, _, .sha256 hmsg hu⟩
  | hmac =>
    obtain ⟨u, hu⟩ := uHmac_progress hkey hmsg
    exact .inr ⟨_, _, .hmac hu⟩
  | wload => exact .inr ⟨_, _, .wload hmsg (uInit_eq (hseq.trans (seqMax_le_workMax _)))⟩
  | pad =>
    by_cases hp : s.phase = .init
    · exact .inr ⟨_, _, .pad hp (uPad_eq (hwork hp))⟩
    · exact .inl ⟨_, .pad hp⟩
  | compress =>
    by_cases hc : (s.phase = .padded ∨ s.phase = .compressing) ∧ s.blk ≠ s.nblk
    · obtain ⟨hp, hne⟩ := hc
      have hinit : s.phase ≠ .init := fun hi => by simp [hi] at hp
      exact .inr ⟨_, _, .compress hp hne (uCompress_eq (block_le_workMax h.ranges h.blocks hinit hne))⟩
    · exact .inl ⟨_, .compress hc⟩
  | finalize =>
    by_cases hc : s.phase = .compressing ∧ s.blk = s.nblk
    · obtain ⟨hp, he⟩ := hc
      exact .inr ⟨_, _, .finalize hp he (uFinalize_eq s)⟩
    · exact .inl ⟨_, .finalize hc⟩
  | rdd k =>
    by_cases hp : s.phase = .finalized
    · by_cases hk : k < 32
      · exact .inr ⟨_, _, .rdd hp hk⟩
      · exact .inl ⟨_, .rddIndex hp (Nat.le_of_not_lt hk)⟩
    · exact .inl ⟨_, .rddPhase hp⟩
  | rds a =>
    cases hw : window s a with
    | none => exact .inl ⟨_, .rds hw⟩
    | some d => exact .inr ⟨_, _, .rds hw⟩

/-- Settles O14: a failure responds its error with data 0x00, a success its data, which only a read has. -/
theorem everyCommandReturnsOneResponse : Obligations.EveryCommandReturnsOneResponse := by
  refine ⟨fun r => ⟨op_c16 r.st.code r.data, arg_c16 r.st.code r.data⟩, fun i s h => ?_⟩
  rcases fails_or_succeeds i h with ⟨e, hf⟩ | ⟨u, d, hs⟩
  · exact ⟨s.raised e, ⟨e, 0⟩, hf.exec_eq, rfl, fun hd => absurd rfl hd⟩
  · exact ⟨u.responded d, ⟨.ok, d⟩, hs.exec_eq, rfl, fun hd => ⟨rfl, hs.read_of_data_ne_zero hd⟩⟩

end Sys2Proof.Machine
end

section
/-! PROOF. The word units ADD32, ROTR and SHR (40_bytecodec_wordops.md R80 to R82). -/

namespace Sys2Proof.Machine

theorem add32_toNat (x y : Word) : (add32 x y).toNat = (x.toNat + y.toNat) % 2 ^ 32 := BitVec.toNat_add x y

/-- The model's rotation is the library's: for an amount of 0 mod 32 the part shifted left by 32 is zero. -/
theorem rotr_eq_rotateRight (x : Word) (n : Nat) : rotr x n = x.rotateRight n := by
  rw [BitVec.rotateRight_def]
  by_cases h : n % 32 = 0
  · simp [rotr, h]
  · exact if_neg h

/-- Below `32 - n mod 32` the index `i + n` does not wrap around; from there on it does, once. -/
theorem rotr_getLsbD (x : Word) (n : Nat) {i : Nat} (hi : i < 32) :
    (rotr x n).getLsbD i = x.getLsbD ((i + n) % 32) := by
  rw [rotr_eq_rotateRight, BitVec.getLsbD_rotateRight]
  by_cases h : i < 32 - n % 32
  · have hidx : (i + n) % 32 = n % 32 + i := by omega
    simp [h, hidx]
  · have hidx : (i + n) % 32 = i - (32 - n % 32) := by omega
    simp [h, hi, hidx]

theorem shr_toNat (x : Word) (n : Nat) : (shr x n).toNat = x.toNat / 2 ^ (n % 32) := by
  rw [shr, BitVec.toNat_ushiftRight, Nat.shiftRight_eq_div_pow]

/-- Settles O46: ADD32 is the addition of 32-bit words, ROTR and SHR are given by their bits and their value. -/
theorem addRotateShiftUnits : Obligations.AddRotateShiftUnits := fun x y z n =>
  ⟨add32_toNat x y, BitVec.add_comm x y, BitVec.add_assoc x y z, BitVec.add_zero x,
    fun _ hi => rotr_getLsbD x n hi, shr_toNat x n⟩

end Sys2Proof.Machine
end

section
/-! PROOF. The exclusive or of two byte sequences (40_bytecodec_wordops.md R92). -/

namespace Sys2Proof.Machine

theorem xorBytes_of_length_ne {s t : List Byte} (h : s.length ≠ t.length) : xorBytes s t = none := if_neg h

/-- Settles O49: on equal lengths the result pairs the bytes position by position. -/
theorem xorBytesLaws : Obligations.XorBytesLaws := by
  refine fun s t => ⟨xorBytes_of_length_ne, fun h => ⟨_, xorBytes_of_length h, by simp [h], fun i hs => ?_⟩⟩
  have ht : i < t.length := h ▸ hs
  simp [hs, ht]

end Sys2Proof.Machine
end

section
/-! PROOF. Padding (41_sha256_stages.md R110, R111): the number of zero bytes and the length of the padded message. -/

namespace Sys2Proof.Machine

theorem pad_of_gt {m : List Byte} (h : LIMIT < m.length) : pad m = none := if_neg (Nat.not_le.mpr h)

theorem padZeros_cast (n : Nat) : (padZeros n : Int) = (55 - (n : Int)) % 64 := by
  rw [padZeros]
  omega

/-- The mark and the zero bytes fill up to the last eight bytes of a block. -/
theorem padZeros_aligns (n : Nat) : (n + 1 + padZeros n) % 64 = 56 := by
  have := padZeros_cast n
  omega

/-- No smaller number of zero bytes aligns. -/
theorem padZeros_le_of_aligns {n j : Nat} (h : (n + 1 + j) % 64 = 56) : padZeros n ≤ j := by
  have := padZeros_cast n
  omega

/-- The padded message in the five parts of R110. -/
theorem append_padTail (m : List Byte) :
    m ++ padTail m.length =
      m ++ [0x80] ++ List.replicate (padZeros m.length) 0 ++ List.replicate 4 0 ++
        be32 (BitVec.ofNat 32 (8 * m.length)) := by
  simp [padTail, padMark]

/-- Settles O43: `padZeros` is the least number that aligns, and the padded length is `padded_length`. -/
theorem padLaws : Obligations.PadLaws := by
  refine fun m => ⟨pad_of_gt, fun h => ?_⟩
  have hz : (m ++ padTail m.length).length = m.length + 9 + padZeros m.length := by
    rw [List.length_append, padTail_length, Nat.add_assoc]
  have hb : (m ++ padTail m.length).length = 64 * ((m.length + 8) / 64 + 1) := by
    rw [List.length_append, padded_length]
  refine ⟨_, padZeros m.length, pad_of_le h, append_padTail m, padZeros_cast _, padZeros_aligns _,
    fun j => padZeros_le_of_aligns, ?_, hz, ?_, ?_, ?_, ?_, List.take_left, ?_⟩
  · simp only [LIMIT] at h
    omega
  all_goals omega

end Sys2Proof.Machine
end

section
/-! PROOF. The message schedule (41_sha256_stages.md R112, R113): the words of the block and the recurrence. -/

namespace Sys2Proof.Machine

/-! ## The expansion -/

/-- The words already there are the first of the expansion. -/
theorem prefix_expand (n : Nat) (ws : List Word) : ws <+: expand n ws := by
  induction n generalizing ws with
  | zero => exact List.prefix_rfl
  | succ n ih => exact (List.prefix_append ws _).trans (ih _)

/-- Each new word of the expansion is `nextWord` of the words before it. -/
theorem expand_getD_of_ge {n i : Nat} {ws : List Word} (h : ws.length ≤ i) (hi : i < ws.length + n) :
    (expand n ws).getD i 0 = nextWord ((expand n ws).take i) := by
  induction n generalizing ws with
  | zero => omega
  | succ n ih =>
    rw [expand]
    rcases h.eq_or_lt with rfl | hlt
    · have htake : (expand n (ws ++ [nextWord ws])).take ws.length = ws :=
        (List.prefix_iff_eq_take.mp ((List.prefix_append ws _).trans (prefix_expand n _))).symm
      rw [htake, expand_getD_of_lt (by simp)]
      simp
    · exact ih (by simpa using hlt) (by simp only [List.length_append, List.length_singleton]; omega)

/-- `nextWord` reads the words 16, 15, 7 and 2 places back (R113). -/
theorem nextWord_take {ws : List Word} {i : Nat} (h : 16 ≤ i) (hi : i ≤ ws.length) :
    nextWord (ws.take i) =
      ws.getD (i - 16) 0 + ssig0 (ws.getD (i - 15) 0) + ws.getD (i - 7) 0 + ssig1 (ws.getD (i - 2) 0) := by
  have hread : ∀ j, 0 < j → (ws.take i).getD (i - j) 0 = ws.getD (i - j) 0 := fun j hj => by
    rw [List.getD_eq_getElem?_getD, List.getElem?_take, if_pos (by omega), ← List.getD_eq_getElem?_getD]
  simp (disch := omega) only [nextWord, List.length_take, Nat.min_eq_left hi, hread, add32]

/-! ## The schedule of a block -/

theorem schedule_getElem (b : Block) {i : Nat} (h : i < 64) :
    (schedule b)[i] = (expand 48 (blockWords b).toList).getD i 0 := by
  simp only [schedule, Vector.getElem_ofFn]

theorem schedule_of_lt (b : Block) {i : Nat} (h : i < 16) :
    (schedule b)[i] = wordOf b[4 * i] b[4 * i + 1] b[4 * i + 2] b[4 * i + 3] := by
  rw [schedule_getElem b (by omega), expand_getD_of_lt (by simpa using h)]
  simp [blockWords, h]

theorem schedule_recurrence (b : Block) {i : Nat} (h : 16 ≤ i) (hi : i < 64) :
    (schedule b)[i] =
      (schedule b)[i - 16] + ssig0 (schedule b)[i - 15] + (schedule b)[i - 7] + ssig1 (schedule b)[i - 2] := by
  simp only [schedule_getElem]
  rw [expand_getD_of_ge (by simpa using h) (by simpa using hi), nextWord_take h]
  rw [expand_length, Vector.length_toList]
  omega

/-- The zero words satisfy the recurrence. -/
theorem schedule_of_zero {b : Block} (h : ∀ i : Fin 64, b[i] = 0) {i : Nat} (hi : i < 64) : (schedule b)[i] = 0 := by
  have hb : ∀ j, ∀ hj : j < 64, b[j] = 0 := fun j hj => h ⟨j, hj⟩
  induction i using Nat.strong_induction_on with
  | h i ih =>
    rcases Nat.lt_or_ge i 16 with hlt | hge
    · rw [schedule_of_lt b hlt]
      simp only [hb]
      decide
    · have hback : ∀ j, ∀ _ : 0 < j ∧ j ≤ 16, (schedule b)[i - j] = 0 := fun j hj => ih (i - j) (by omega) (by omega)
      simp (disch := omega) only [schedule_recurrence b hge hi, hback]
      decide

/-! ## The words of a block by `bytesToWords` -/

/-- On whole groups `bytesToWords` answers the words of the groups. -/
theorem bytesToWords_eq_map_range {n : Nat} {s : List Byte} (h : s.length = 4 * n) :
    bytesToWords s = some ((List.range n).map fun j =>
      wordOf (s.getD (4 * j) 0) (s.getD (4 * j + 1) 0) (s.getD (4 * j + 2) 0) (s.getD (4 * j + 3) 0)) := by
  induction n generalizing s with
  | zero =>
    obtain rfl := List.eq_nil_of_length_eq_zero h
    rfl
  | succ n ih =>
    match s, h with
    | b0 :: b1 :: b2 :: b3 :: rest, h =>
      have hr : rest.length = 4 * n := by
        simp only [List.length_cons] at h
        omega
      rw [bytesToWords, ih hr, List.range_succ_eq_map]
      simp [Nat.mul_succ, Function.comp_def]

theorem bytesToWords_block (b : Block) : bytesToWords b.toList = some ((schedule b).toList.take 16) := by
  rw [bytesToWords_eq_map_range (n := 16) b.length_toList]
  refine congrArg some (List.ext_getElem (by simp) fun i hi _ => ?_)
  have hi : i < 16 := by simpa using hi
  have hb : ∀ j, ∀ hj : j < 64, b.toList.getD j 0 = b[j] := fun j hj => by simp [hj]
  simp (disch := omega) only [List.getElem_map, List.getElem_range, List.getElem_take, Vector.getElem_toList,
    schedule_of_lt, hb]

/-- Settles O44: the expansion keeps the words of the block and appends `nextWord` of the words before. -/
theorem scheduleRecurrence : Obligations.ScheduleRecurrence := fun b =>
  ⟨fun i => schedule_of_lt b i.isLt, bytesToWords_block b, fun _ => schedule_recurrence b,
    fun h i => schedule_of_zero h i.isLt⟩

end Sys2Proof.Machine
end

section
/-! PROOF. The compression function (41_sha256_stages.md R115, R117): one round as sums mod 2^32, and the add-back. -/

namespace Sys2Proof.Machine

theorem round_a_toNat (v : WorkVars) (k w : Word) :
    (round v k w).a.toNat =
      (v.h.toNat + (bsig1 v.e).toNat + (ch v.e v.f v.g).toNat + k.toNat + w.toNat +
        ((bsig0 v.a).toNat + (maj v.a v.b v.c).toNat)) % 2 ^ 32 := by
  simp only [round, BitVec.toNat_add, Nat.add_mod_mod, Nat.mod_add_mod]

theorem round_e_toNat (v : WorkVars) (k w : Word) :
    (round v k w).e.toNat =
      (v.d.toNat + (v.h.toNat + (bsig1 v.e).toNat + (ch v.e v.f v.g).toNat + k.toNat + w.toNat)) % 2 ^ 32 := by
  simp only [round, BitVec.toNat_add, Nat.add_mod_mod, Nat.mod_add_mod]

theorem addBack_getElem (s : Vector Word 8) (v : WorkVars) (i : Fin 8) :
    (addBack s v)[i] = add32 s[i] v.toVector[i] := by
  fin_cases i <;> rfl

theorem compress_eq_addBack_roundsUpTo (s : Vector Word 8) (b : Block) :
    compress s b = addBack s (roundsUpTo (schedule b) (WorkVars.ofHash s) 64) := by
  rw [roundsUpTo_all, compress]

/-- Settles O45: `V_t` is `roundsUpTo` of `t` rounds. -/
theorem compressRunsSixtyFourRounds : Obligations.CompressRunsSixtyFourRounds := by
  intro s b
  have hround (t : Fin 64) := roundsUpTo_succ (schedule b) (WorkVars.ofHash s) t.isLt
  refine ⟨roundsUpTo (schedule b) (WorkVars.ofHash s), rfl, hround, fun t => ?_, fun i => ?_⟩
  · rw [hround t]
    exact ⟨round_a_toNat _ _ _, rfl, rfl, rfl, round_e_toNat _ _ _, rfl, rfl, rfl⟩
  · rw [compress_eq_addBack_roundsUpTo, addBack_getElem]

end Sys2Proof.Machine
end

section
/-! PROOF. The hash (41_sha256_stages.md R118, R119): the blocks of the padded message, folded from `IV`. -/

namespace Sys2Proof.Machine

theorem sha256_of_gt {m : List Byte} (h : LIMIT < m.length) : sha256 m = none := by
  rw [sha256, pad_of_gt h, Option.map_none]

/-- Byte `i` of block `j` is byte `64j + i` of the sequence. -/
theorem blockAt_getElem (p : List Byte) (j : Nat) (i : Fin 64) : (blockAt p j)[i] = p.getD (64 * j + i.val) 0 := by
  simp [blockAt, toBlock]

/-- Settles O58: the hash states are `hashBlocks`, the blocks `blockAt`. -/
theorem sha256FoldsCompressOverTheBlocks : Obligations.Sha256FoldsCompressOverTheBlocks :=
  ⟨fun _ => rfl, fun m => ⟨sha256_of_gt, fun h =>
    ⟨_, _, hashBlocks (m ++ padTail m.length), pad_of_le h, rfl,
      fun j _ => ⟨blockAt (m ++ padTail m.length) j, blockAt_getElem _ j, rfl⟩, rfl, sha256_of_le h, finalize_length _⟩⟩⟩

end Sys2Proof.Machine
end

section
/-! PROOF. The prepared key (42_hmac.md R140) and the two passes of the HMAC construction (R142, R143). -/

namespace Sys2Proof.Machine

theorem sha256_exists {m : List Byte} (h : m.length ≤ LIMIT) : ∃ d, sha256 m = some d ∧ d.length = 32 :=
  ⟨_, sha256_of_le h, sha256_length (sha256_of_le h)⟩

/-! ## The prepared key -/

theorem prepareKey_of_gt {key : List Byte} (h : 64 < key.length) :
    prepareKey key = (sha256 key).map (· ++ List.replicate 32 0) := if_pos h

theorem prepareKey_of_le {key : List Byte} (h : key.length ≤ 64) :
    prepareKey key = some (key ++ List.replicate (64 - key.length) 0) := if_neg (Nat.not_lt.mpr h)

/-- A digest and 32 zero bytes, or a key filled up to 64 bytes. -/
theorem prepareKey_length {key k : List Byte} (h : prepareKey key = some k) : k.length = 64 := by
  rcases Nat.lt_or_ge 64 key.length with hlong | hshort
  · rw [prepareKey_of_gt hlong] at h
    obtain ⟨d, hd, rfl⟩ := Option.map_eq_some_iff.mp h
    rw [List.length_append, sha256_length hd, List.length_replicate]
  · rw [prepareKey_of_le hshort] at h
    obtain rfl := Option.some.inj h
    rw [List.length_append, List.length_replicate]
    omega

theorem prepareKey_exists {key : List Byte} (h : key.length ≤ LIMIT) :
    ∃ k, prepareKey key = some k ∧ k.length = 64 := by
  suffices hsome : ∃ k, prepareKey key = some k from hsome.imp fun _ hk => ⟨hk, prepareKey_length hk⟩
  rcases Nat.lt_or_ge 64 key.length with hlong | hshort
  · obtain ⟨d, hd, _⟩ := sha256_exists h
    exact ⟨_, by rw [prepareKey_of_gt hlong, hd, Option.map_some]⟩
  · exact ⟨_, prepareKey_of_le hshort⟩

/-- Settles O50: the two branches of `prepareKey`, and no zero byte is added at exactly 64. -/
theorem prepareKeyLaws : Obligations.PrepareKeyLaws := by
  intro key h
  obtain ⟨k, hk, hlen⟩ := prepareKey_exists h
  have hpadded (hle : key.length ≤ 64) : k = key ++ List.replicate (64 - key.length) 0 :=
    Option.some.inj (hk.symm.trans (prepareKey_of_le hle))
  refine ⟨k, hk, hlen, fun hlong => ?_, hpadded, fun heq => ?_⟩
  · obtain ⟨d, hd, hdk⟩ := Option.map_eq_some_iff.mp ((prepareKey_of_gt hlong).symm.trans hk)
    exact ⟨d, hd, hdk.symm⟩
  · simpa [heq] using hpadded heq.le

/-! ## The masked key and the two passes -/

/-- Against a constant mask of its length a sequence is masked byte by byte. -/
theorem xorBytes_replicate {k : List Byte} {n : Nat} (h : k.length = n) (b : Byte) :
    xorBytes k (List.replicate n b) = some (k.map (· ^^^ b)) := by
  rw [xorBytes_of_length (by rw [h, List.length_replicate])]
  exact congrArg some (List.ext_getElem (by simp [h]) fun i _ _ => by simp)

theorem xorBytes_ipad64 {k : List Byte} (h : k.length = 64) : xorBytes k ipad64 = some (k.map (· ^^^ 0x36)) :=
  xorBytes_replicate h 0x36

theorem xorBytes_opad64 {k : List Byte} (h : k.length = 64) : xorBytes k opad64 = some (k.map (· ^^^ 0x5C)) :=
  xorBytes_replicate h 0x5C

/-- With the prepared key and the inner digest given, `hmac` is the outer pass (R143). -/
theorem hmac_eq_outer {key msg k inner : List Byte} (hk : prepareKey key = some k)
    (hi : sha256 (k.map (· ^^^ 0x36) ++ msg) = some inner) :
    hmac key msg = sha256 (k.map (· ^^^ 0x5C) ++ inner) := by
  have hlen := prepareKey_length hk
  simp only [hmac, concatBytes, hk, xorBytes_ipad64 hlen, xorBytes_opad64 hlen, hi, Option.bind_some]

/-- Settles O59: the inner pass hashes 64 bytes and the message, the outer pass 96 bytes. -/
theorem hmacIsTheTwoPassConstruction : Obligations.HmacIsTheTwoPassConstruction := by
  refine ⟨rfl, rfl, fun k hlen => ⟨xorBytes_ipad64 hlen, xorBytes_opad64 hlen⟩, fun key msg hkey hmsg => ?_⟩
  obtain ⟨k, hk, hlen⟩ := prepareKey_exists hkey
  obtain ⟨inner, hi, hil⟩ : ∃ d, sha256 (k.map (· ^^^ 0x36) ++ msg) = some d ∧ d.length = 32 :=
    sha256_exists (by rwa [List.length_append, List.length_map, hlen])
  obtain ⟨mac, hm, hml⟩ : ∃ d, sha256 (k.map (· ^^^ 0x5C) ++ inner) = some d ∧ d.length = 32 :=
    sha256_exists (by rw [List.length_append, List.length_map, hlen, hil]; norm_num [LIMIT])
  exact ⟨k, inner, mac, hk, hlen, hi, hil, hm, (hmac_eq_outer hk hi).trans hm, hml⟩

end Sys2Proof.Machine
end

section
/-! PROOF. The housekeeping commands (43_commands.md section 1): `NOP`, `KCLR`, `MCLR` and the two pushes. -/

namespace Sys2Proof.Machine

/-! ## The word of a command with an argument, and the write of one byte -/

/-- The word of two fields: `op` in the high byte, `arg` in the low one (30_encoding.md R60). -/
theorem c16_eq_or (op arg : Byte) : c16 op arg = op.setWidth 16 <<< 8 ||| arg.setWidth 16 := by
  simp only [c16, BitVec.append_def, BitVec.shiftLeftZeroExtend_eq, BitVec.setWidth'_eq]

/-- An argument below 256 stands in the low byte as it is. -/
theorem c16_ofNat_eq_or (op : Byte) {n : Nat} (h : n < 256) :
    c16 op (BitVec.ofNat 8 n) = op.setWidth 16 <<< 8 ||| BitVec.ofNat 16 n := by
  rw [c16_eq_or, BitVec.setWidth_ofNat_of_le_of_lt (by decide) h]

theorem Memory.read_write_singleton (m : Memory) (n : Nat) (b : Byte) (a : Nat) :
    Memory.read (Memory.write m n [b]) a = if a = n then b else Memory.read m a := by
  rw [Memory.read_write]
  by_cases h : a = n
  · simp [h]
  · rw [if_neg h, if_neg (by simp; omega)]

/-- Settles O23: the three commands always succeed. -/
theorem nopKclrMclrResults : Obligations.NopKclrMclrResults := by
  refine ⟨rfl, rfl, rfl, fun arg h => (decode_error_iff _ _).2 (.inr ?_), fun s =>
    ⟨Succeeds.nop.exec_eq, Succeeds.kclr.exec_eq, Succeeds.mclr.exec_eq⟩⟩
  simpa [assignedOps, argumentOps] using h

/-- Settles O24: a full `KEYBUF` is the command's only failure, and its write is of one byte. -/
theorem kpushAppends : Obligations.KpushAppends := fun b s =>
  ⟨c16_eq_or 0x02 b, fun hfull => (Fails.kpush hfull).exec_eq, fun hlt =>
    ⟨_, (Succeeds.kpush hlt).exec_eq, rfl, Memory.read_write_singleton s.keybuf s.keyLen b⟩⟩

/-- Settles O25: a full `MSGBUF` is the command's only failure, and its write is of one byte. -/
theorem mpushAppends : Obligations.MpushAppends := fun b s =>
  ⟨c16_eq_or 0x03 b, fun hfull => (Fails.mpush hfull).exec_eq, fun hlt =>
    ⟨_, (Succeeds.mpush hlt).exec_eq, rfl, Memory.read_write_singleton s.msgbuf s.msgLen b⟩⟩

end Sys2Proof.Machine
end

section
/-! PROOF. The stage commands (43_commands.md section 3): `WLOAD`, `PAD`, `COMPRESS`, `FINALIZE`. -/

namespace Sys2Proof.Machine

/-- A byte beyond a write is the old one. -/
theorem Memory.read_write_of_ge {m : Memory} {n a : Nat} {bs : List Byte} (h : n + bs.length ≤ a) :
    Memory.read (Memory.write m n bs) a = Memory.read m a := by
  rw [Memory.read_write, if_neg (by omega)]

/-- A byte before a write is the old one. -/
theorem Memory.read_write_of_lt {m : Memory} {n a : Nat} {bs : List Byte} (h : a < n) :
    Memory.read (Memory.write m n bs) a = Memory.read m a := by
  rw [Memory.read_write, if_neg (by omega)]

/-- A message within `MSG_MAX` is short enough to be hashed. -/
theorem msgBytes_length_le_seqMax {s : State} (h : s.msgLen ≤ s.params.msgMax.val) :
    s.msgBytes.length ≤ seqMax s.params := by
  rw [State.msgBytes_length]
  exact h.trans (Nat.le_of_add_left_le (msgMax_le_seqMax s.params))

/-- Settles O26: the command is `U_INIT` of the message; the message of the reset state is empty. -/
theorem wloadCapturesTheMessage : Obligations.WloadCapturesTheMessage := by
  have hload {s : State} (h : s.msgLen ≤ s.params.msgMax.val) :=
    uInit_eq ((msgBytes_length_le_seqMax h).trans (seqMax_le_workMax s.params))
  refine ⟨rfl, fun s h => ⟨_, (Succeeds.wload h (hload h)).exec_eq, ?_, (workBytes_uInit (hload h) :), fun a ha => ?_⟩,
    fun p => (Succeeds.wload (Nat.zero_le _) (hload (Nat.zero_le _))).exec_eq⟩
  · rw [State.msgBytes_length]
    rfl
  · exact Memory.read_write_of_ge (by rwa [State.msgBytes_length, Nat.zero_add])

/-- Settles O27: the command is `U_PAD`, whose write is `padTail`. -/
theorem padAppendsThePadding : Obligations.PadAppendsThePadding := by
  refine ⟨rfl, fun s => ⟨fun hp => (Fails.pad hp).exec_eq, fun hp hl => ?_⟩⟩
  have hu := uPad_eq hl
  have hlen : s.workLen + (padTail s.workLen).length = s.workLen + 9 + padZeros s.workLen := by
    rw [padTail_length, Nat.add_assoc]
  have htail := append_padTail s.workBytes
  have hpad := pad_of_le (m := s.workBytes) (by
    rw [State.workBytes_length]
    exact hl.trans (seqMax_le_limit _))
  rw [State.workBytes_length] at htail hpad
  refine ⟨_, padZeros s.workLen, (Succeeds.pad hp hu).exec_eq, padZeros_cast _, ?_,
    (workBytes_uPad hu).trans htail, hpad.trans (congrArg some (workBytes_uPad hu).symm), fun a ha => ?_⟩
  · rw [hlen]
    rfl
  · rcases ha with hlt | hge
    · exact Memory.read_write_of_lt hlt
    · exact Memory.read_write_of_ge (hlen ▸ hge)

/-- A block that is still to be compressed is read whole from the content of `WORK`. -/
theorem block_le_workLen {s : State} (hb : s.BlocksOk) (hp : s.phase ≠ .init) (hlt : s.blk < s.nblk) :
    64 * s.blk + 64 ≤ s.workLen := by
  obtain ⟨-, -, hn, -⟩ := hb
  obtain ⟨hn, -⟩ := hn hp
  omega

/-- Settles O28: the command is `U_COMPRESS` of a block inside the content of `WORK`. -/
theorem compressCompressesOneBlock : Obligations.CompressCompressesOneBlock := by
  refine ⟨rfl, fun s => ⟨fun h => (Fails.compress (by tauto)).exec_eq, fun hi hp hlt => ?_⟩⟩
  have hinit : s.phase ≠ .init := fun h => by simp [h] at hp
  have hu := uCompress_eq (block_le_workMax hi.ranges hi.blocks hinit hlt.ne)
  rw [toBlock_bytes (block_le_workLen hi.blocks hinit hlt)] at hu
  exact (Succeeds.compress hp hlt.ne hu).exec_eq

/-- Settles O29: the command is `U_FINALIZE`, whose write is the 32 bytes of the serialised hash state. -/
theorem finalizeSerialisesTheHash : Obligations.FinalizeSerialisesTheHash :=
  ⟨rfl, fun s => ⟨fun h => (Fails.finalize (by tauto)).exec_eq, fun hp hb =>
    ⟨_, (Succeeds.finalize hp hb (uFinalize_eq s)).exec_eq, rfl, (digestBytes_uFinalize (uFinalize_eq s) :),
      fun _ ha => Memory.read_write_of_ge (by rwa [finalize_length, Nat.zero_add])⟩⟩⟩

end Sys2Proof.Machine
end

section
/-! PROOF. The whole computations (43_commands.md section 2): `SHA256` and `HMAC`. -/

namespace Sys2Proof.Machine

/-- Settles O30: the command is `U_HASH` of the message; `HashFrame` has the fields that it does not write. -/
theorem sha256CommandHashesTheMessage : Obligations.Sha256CommandHashesTheMessage := by
  refine ⟨rfl, fun s hm => ?_⟩
  obtain ⟨u, hu, hf, hph, ht, hsha, hdig, hpad, hwl, hn, hb, -, hw, hv, hwork, hdigest⟩ :=
    uHash_spec (msgBytes_length_le_seqMax hm)
  have hn : u.nblk = u.workLen / 64 := by omega
  exact ⟨u.responded 0, (Succeeds.sha256 hm hu).exec_eq,
    State.ext hf.params rfl rfl rfl ht (hb.trans hn) hn hph hf.err hf.keybuf hf.keyLen hf.msgbuf hf.msgLen rfl rfl
      hf.k0 hf.inner rfl rfl hf.host,
    hsha, hdig, hpad, hw, hv, hwork, hdigest⟩

/-- With the prepared key, the masked keys and the inner digest given, `hmac` is the hash of the outer input (R143). -/
theorem hmac_eq_sha256_outer {key msg k ik ok inner : List Byte} (hk : prepareKey key = some k)
    (hik : xorBytes k ipad64 = some ik) (hok : xorBytes k opad64 = some ok) (hi : sha256 (ik ++ msg) = some inner) :
    hmac key msg = sha256 (ok ++ inner) := by
  simp only [hmac, concatBytes, hk, hik, hok, hi, Option.bind_some]

/-- What the first two passes of the HMAC controller leave for the third: the prepared key in `K0`, the inner digest in
`INNER` (R144). -/
theorem uKprep_uInner_spec {s : State} (hk : s.keyLen ≤ s.params.keyMax.val) (hm : s.msgLen ≤ s.params.msgMax.val) :
    ∃ u ik, andThen (uKprep s) uInner = .next u ∧ MacFrame s u ∧
      prepareKey s.keyBytes = some (u.content .k0 64) ∧ xorBytes (u.content .k0 64) ipad64 = some ik ∧
      sha256 (ik ++ s.msgBytes) = some (u.content .inner 32) ∧
      (∀ a, 64 ≤ a → u.byteAt .k0 a = s.byteAt .k0 a) ∧
      (∀ a, 32 ≤ a → u.byteAt .inner a = s.byteAt .inner a ∧ u.byteAt .digest a = s.byteAt .digest a) ∧
      (∀ a, 64 * ((64 + s.msgLen + 8) / 64 + 1) ≤ a → (64 < s.keyLen → 64 * ((s.keyLen + 8) / 64 + 1) ≤ a) →
        u.byteAt .work a = s.byteAt .work a) := by
  obtain ⟨r, hr, hfr, hrinner, hkey, hrk0, hrdigest, hrwork⟩ := uKprep_spec hk
  obtain ⟨ik, hik, hil⟩ := xorBytes_k0 r ipad64_length
  obtain ⟨u, hu, hfu, huk0, hinner, huinner, hudigest, huwork⟩ :=
    uInner_spec (by rwa [hfr.msgLen, hfr.params]) hik hil
  have hk0 : u.content .k0 64 = r.content .k0 64 := by simp only [State.content, State.space_k0, huk0]
  have hmsg : r.msgBytes = s.msgBytes := by
    simp only [State.msgBytes, State.content, State.space_msgbuf, hfr.msgbuf, hfr.msgLen]
  rw [hmsg] at hinner
  rw [hfr.msgLen] at huwork
  refine ⟨u, ik, by rw [hr, andThen_next, hu], hfr.trans hfu, hk0 ▸ hkey, hk0 ▸ hik, hinner, fun a ha => ?_,
    fun a ha => ⟨(huinner a ha).trans ?_, (hudigest a ha).trans (hrdigest a ha)⟩,
    fun a hpass hkprep => (huwork a hpass).trans (hrwork a hkprep)⟩
  · rw [← hrk0 a ha]
    simp only [State.byteAt, State.space_k0, huk0]
  · simp only [State.byteAt, State.space_inner, hrinner]

/-- Settles O31: the command is the two passes of `uKprep_uInner_spec` and `U_HASH` of the 96 bytes of the outer input;
`MacFrame` has the fields that it does not write. -/
theorem hmacCommandComputesTheMac : Obligations.HmacCommandComputesTheMac := by
  refine ⟨rfl, fun s hk hm => ?_⟩
  obtain ⟨u, ik, hu, hf, hkey, hik, hinner, huk0, hubytes, huwork⟩ := uKprep_uInner_spec hk hm
  obtain ⟨ok, hok, hol⟩ := xorBytes_k0 u opad64_length
  have hlen : (ok ++ u.content .inner 32).length = 96 := by rw [List.length_append, hol, State.content_length]
  obtain ⟨t, ht, hft, hph, ht64, hsha, hdig, hpad, hwl, hn, hb, -, hw, hv, hwork, hdigest⟩ :=
    uHash_spec (hlen.trans_le (outer_le_seqMax u.params))
  rw [hlen] at hwl hn
  have hrun : uHmac s = .next t := by rw [uHmac, ← andThen_assoc, hu, andThen_next, uOuter_eq hok, ht]
  have hk0 : t.content .k0 64 = u.content .k0 64 := by simp only [State.content, State.space_k0, hft.k0]
  have hin : t.content .inner 32 = u.content .inner 32 := by simp only [State.content, State.space_inner, hft.inner]
  rw [← hk0] at hkey hik hok
  rw [← hin] at hinner hsha hpad
  rw [hn] at hw hv
  have hmac := hf.trans hft.mac
  refine ⟨t.responded 0, ik, ok, (Succeeds.hmac hrun).exec_eq,
    State.ext hmac.params rfl rfl rfl ht64 (hb.trans hn) hn hph hmac.err hmac.keybuf hmac.keyLen hmac.msgbuf
      hmac.msgLen rfl hwl rfl rfl rfl rfl hmac.host,
    (hmac_eq_sha256_outer hkey hik hok hinner).trans hsha, hdig, hkey, hik, hinner, hok, hpad, hw, hv,
    fun a houter hpass hkprep => (hwork a (hwl.trans_le houter)).trans (huwork a hpass hkprep), fun a ha => ?_,
    fun a ha => ⟨?_, (hdigest a ha).trans (hubytes a ha).2⟩⟩
  · rw [← huk0 a ha]
    simp only [State.byteAt, State.space_k0, State.responded, hft.k0]
  · rw [← (hubytes a ha).1]
    simp only [State.byteAt, State.space_inner, State.responded, hft.inner]

end Sys2Proof.Machine
end

section
/-! PROOF. The reads (43_commands.md section 4): `RDD` and `RDS`. -/

namespace Sys2Proof.Machine

/-! ## Bytes of serialised words -/

/-- Byte `k` of a word, 0 the most significant. -/
theorem be32_getElem? (w : Word) {k : Nat} (h : k < 4) : (be32 w)[k]? = some (w.extractLsb' (24 - 8 * k) 8) := by
  interval_cases k <;> rfl

/-- The byte `4i + k` of a serialisation is byte `k` of word `i`. -/
theorem wordsToBytes_getElem? {ws : List Word} {i k : Nat} {w : Word} (hw : ws[i]? = some w) (hk : k < 4) :
    (wordsToBytes ws)[4 * i + k]? = some (w.extractLsb' (24 - 8 * k) 8) := by
  induction ws generalizing i with
  | nil => simp at hw
  | cons x ws ih =>
    have hcons : wordsToBytes (x :: ws) = be32 x ++ wordsToBytes ws := rfl
    cases i with
    | zero =>
      obtain rfl : x = w := by simpa using hw
      rw [hcons, List.getElem?_append_left (by simp; omega), Nat.mul_zero, Nat.zero_add, be32_getElem? x hk]
    | succ i =>
      rw [hcons, List.getElem?_append_right (by simp; omega), ← ih (by simpa using hw)]
      congr 1
      simp
      omega

/-- The byte `4i + k` of eight serialised words, as of `H` or `a..h`. -/
theorem wordsToBytes_toList_getElem? (v : Vector Word 8) (i : Fin 8) {k : Nat} (hk : k < 4) :
    (wordsToBytes v.toList)[4 * i.val + k]? = some (v[i].extractLsb' (24 - 8 * k) 8) :=
  wordsToBytes_getElem? (by simp) hk

/-! ## `RDD` -/

/-- Settles O32: the two checks in their order; the digest serialises `H` under the invariant. -/
theorem rddReadsTheDigest : Obligations.RddReadsTheDigest := by
  refine fun i s => ⟨c16_ofNat_eq_or 0x30, fun hp => (Fails.rddPhase hp).exec_eq,
    fun hp hi => (Fails.rddIndex hp hi).exec_eq, fun hp hi => ?_, fun hinv hp => ?_⟩
  · rw [State.digestBytes, State.content_getD s .digest hi]
    exact (Succeeds.rdd hp hi).exec_eq
  · have hbyte := wordsToBytes_toList_getElem? s.h 0 (k := 0) (by decide)
    rw [hinv.digestOk hp, finalize, List.getD_eq_getElem?_getD]
    exact congrArg (Option.getD · 0) hbyte

/-! ## The status window -/

theorem statusByte_fields (s : State) :
    (statusByte s).extractLsb' 0 2 = s.phase.code ∧ ((statusByte s).getLsbD 2 = true ↔ s.phase = .finalized) ∧
      (statusByte s).extractLsb' 3 5 = 0 := by
  unfold statusByte dvalid
  cases s.phase <;> decide

theorem window_counter {s : State} {j k : Nat} {w : Word} (hw : (counterWords s)[j]? = some w) (hk : k < 4) :
    window s (0x04 + 4 * j + k) = some (w.extractLsb' (24 - 8 * k) 8) := by
  have hj : j < 5 := by simpa [counterWords] using (List.getElem?_eq_some_iff.mp hw).1
  unfold window
  rw [if_neg (by omega), if_neg (by omega), if_pos (by omega), ← wordsToBytes_getElem? hw hk]
  congr 1
  omega

theorem window_hash (s : State) (i : Fin 8) {k : Nat} (hk : k < 4) :
    window s (0x20 + 4 * i.val + k) = some (s.h[i].extractLsb' (24 - 8 * k) 8) := by
  unfold window
  iterate 4 rw [if_neg (by omega)]
  rw [if_pos (by omega), ← wordsToBytes_toList_getElem? s.h i hk]
  congr 1
  omega

theorem window_workVar (s : State) (i : Fin 8) {k : Nat} (hk : k < 4) :
    window s (0x40 + 4 * i.val + k) = some (s.v.toVector[i].extractLsb' (24 - 8 * k) 8) := by
  unfold window
  iterate 5 rw [if_neg (by omega)]
  rw [if_pos (by omega), ← wordsToBytes_toList_getElem? s.v.toVector i hk]
  congr 1
  omega

/-- `WORK` is at most 72 bytes larger than the longest sequence, which is at most `LIMIT` bytes. -/
theorem workMax_lt (p : Params) : workMax p < 2 ^ 32 := by
  have h := seqMax_le_limit p
  simp only [workMax, LIMIT] at *
  omega

/-- Under the invariant every counter fits its 32-bit word, and `T` its byte. -/
theorem counters_lt {s : State} (h : s.Inv) :
    s.keyLen < 2 ^ 32 ∧ s.msgLen < 2 ^ 32 ∧ s.workLen < 2 ^ 32 ∧ s.nblk < 2 ^ 32 ∧ s.blk < 2 ^ 32 ∧ s.t < 2 ^ 8 := by
  obtain ⟨hkey, hmsg, hwork, ht, -⟩ := h.ranges
  obtain ⟨hblk, hinit, hn, -⟩ := h.blocks
  have hkmax := keyMax_le_seqMax s.params
  have hmmax := msgMax_le_seqMax s.params
  have hsmax := seqMax_le_workMax s.params
  have hwmax := workMax_lt s.params
  have hnblk : s.nblk ≤ s.workLen / 64 := by
    by_cases hp : s.phase = .init
    · exact hinit hp ▸ Nat.zero_le _
    · exact (hn hp).1.le
  omega

/-- A counter that fits its word is read from the window exactly. -/
theorem rds_counter {s : State} {j n : Nat} (hw : (counterWords s)[j]? = some (BitVec.ofNat 32 n)) (hn : n < 2 ^ 32)
    {k : Nat} (hk : k < 4) :
    ∃ w : Word, w.toNat = n ∧ exec (.rds (0x04 + 4 * j + k)) s = .next (s.responded (w.extractLsb' (24 - 8 * k) 8)) :=
  ⟨BitVec.ofNat 32 n, by rw [BitVec.toNat_ofNat, Nat.mod_eq_of_lt hn], (Succeeds.rds (window_counter hw hk)).exec_eq⟩

/-- Settles O33: the window region by region; its reserved addresses are those of `window_eq_none_iff`. -/
theorem rdsReadsTheWindow : Obligations.RdsReadsTheWindow := by
  refine fun s => ⟨fun a => c16_ofNat_eq_or 0x31, ⟨statusByte s, (Succeeds.rds rfl).exec_eq, statusByte_fields s⟩,
    (Succeeds.rds rfl).exec_eq, fun hinv => ?_, fun i k hk => (Succeeds.rds (window_hash s i hk)).exec_eq,
    fun i k hk => (Succeeds.rds (window_workVar s i hk)).exec_eq,
    fun a ha => (Fails.rds ((window_eq_none_iff s a).2 ?_)).exec_eq⟩
  · obtain ⟨hkey, hmsg, hwork, hnblk, hblk, ht⟩ := counters_lt hinv
    exact ⟨fun k => rds_counter (j := 0) rfl hkey, fun k => rds_counter (j := 1) rfl hmsg,
      fun k => rds_counter (j := 2) rfl hwork, fun k => rds_counter (j := 3) rfl hnblk,
      fun k => rds_counter (j := 4) rfl hblk,
      ⟨BitVec.ofNat 8 s.t, by rw [BitVec.toNat_ofNat, Nat.mod_eq_of_lt ht], (Succeeds.rds rfl).exec_eq⟩⟩
  · exact decide_eq_true (by omega)

end Sys2Proof.Machine
end

section
/-! PROOF. The hex codec (44_host_codec.md R192): hex characters and their values, and what `hexToBytes` answers. -/

namespace Sys2Proof.Machine

/-! ## Hex characters -/

theorem hexValue_ne_none_iff (upperOk : Bool) (c : Char) :
    hexValue upperOk c ≠ none ↔ (0x30 ≤ c.toNat ∧ c.toNat ≤ 0x39) ∨ (0x61 ≤ c.toNat ∧ c.toNat ≤ 0x66) ∨
      (upperOk = true ∧ 0x41 ≤ c.toNat ∧ c.toNat ≤ 0x46) := by
  simp only [hexValue]
  split_ifs <;> simp [*]

theorem mem_hexAlphabet_iff (c : Char) :
    c ∈ hexAlphabet ↔ (0x30 ≤ c.toNat ∧ c.toNat ≤ 0x39) ∨ (0x61 ≤ c.toNat ∧ c.toNat ≤ 0x66) := by
  simp only [hexAlphabet, List.mem_cons, List.not_mem_nil, or_false, ← Char.toNat_inj, Char.reduceToNat]
  omega

theorem mem_upperHexDigits_iff (c : Char) :
    c ∈ ['A', 'B', 'C', 'D', 'E', 'F'] ↔ 0x41 ≤ c.toNat ∧ c.toNat ≤ 0x46 := by
  simp only [List.mem_cons, List.not_mem_nil, or_false, ← Char.toNat_inj, Char.reduceToNat]
  omega

theorem hexValue_ne_none_iff_mem (upperOk : Bool) (c : Char) :
    hexValue upperOk c ≠ none ↔
      c ∈ hexAlphabet ∨ (upperOk = true ∧ c ∈ ['A', 'B', 'C', 'D', 'E', 'F']) := by
  rw [hexValue_ne_none_iff, mem_hexAlphabet_iff, mem_upperHexDigits_iff, or_assoc]

/-- Digit `n` of the alphabet has the value `n`, whether or not upper case is accepted. -/
theorem hexValue_hexAlphabet (upperOk : Bool) {n : Nat} (h : n < 16) :
    hexValue upperOk (hexAlphabet.getD n ' ') = some (BitVec.ofNat 4 n) := by
  interval_cases n <;> rfl

theorem hexValue_upperHexDigit {n : Nat} (h : n < 6) :
    hexValue true (['A', 'B', 'C', 'D', 'E', 'F'].getD n ' ') = some (BitVec.ofNat 4 (10 + n)) := by
  interval_cases n <;> rfl

/-! ## `hexToBytes` -/

/-- High nibble first. -/
theorem nibbles_toNat (x y : BitVec 4) : (x ++ y).toNat = 16 * x.toNat + y.toNat := by
  rw [BitVec.toNat_append, ← Nat.shiftLeft_add_eq_or_of_lt y.isLt, Nat.shiftLeft_eq]
  omega

theorem hexToBytes_ok_cons_cons {upperOk : Bool} {hi lo : Char} {rest : Text} {b : List Byte}
    (h : hexToBytes upperOk (hi :: lo :: rest) = .ok b) :
    ∃ x y bs, hexValue upperOk hi = some x ∧ hexValue upperOk lo = some y ∧ hexToBytes upperOk rest = .ok bs ∧
      b = (x ++ y) :: bs := by
  rw [hexToBytes] at h
  split at h
  case h_1 x y bs hx hy hbs => exact ⟨x, y, bs, hx, hy, hbs, (Except.ok.inj h).symm⟩
  case h_2 => cases h

/-- `InvalidHex` is the only failure. -/
theorem hexToBytes_ok_or_invalidHex (upperOk : Bool) (t : Text) :
    (∃ b, hexToBytes upperOk t = .ok b) ∨ hexToBytes upperOk t = .error .invalidHex := by
  match t with
  | [] => exact .inl ⟨[], rfl⟩
  | [_] => exact .inr rfl
  | hi :: lo :: rest =>
    rw [hexToBytes]
    split
    · exact .inl ⟨_, rfl⟩
    · exact .inr rfl

theorem hexToBytes_cons_cons_invalidHex_iff (upperOk : Bool) (hi lo : Char) (rest : Text) :
    hexToBytes upperOk (hi :: lo :: rest) = .error .invalidHex ↔
      hexValue upperOk hi = none ∨ hexValue upperOk lo = none ∨ hexToBytes upperOk rest = .error .invalidHex := by
  rw [hexToBytes]
  split
  case h_1 hx hy hbs => simp [hx, hy, hbs]
  case h_2 hfail =>
    refine iff_of_true rfl ?_
    by_contra! hok
    obtain ⟨hhi, hlo, hrest⟩ := hok
    obtain ⟨x, hx⟩ := Option.ne_none_iff_exists'.1 hhi
    obtain ⟨y, hy⟩ := Option.ne_none_iff_exists'.1 hlo
    obtain ⟨bs, hbs⟩ := (hexToBytes_ok_or_invalidHex upperOk rest).resolve_right hrest
    exact hfail x y bs hx hy hbs

theorem hexToBytes_invalidHex_iff (upperOk : Bool) (t : Text) :
    hexToBytes upperOk t = .error .invalidHex ↔ t.length % 2 = 1 ∨ ∃ c ∈ t, hexValue upperOk c = none := by
  induction t using List.twoStepInduction with
  | nil => simp [hexToBytes]
  | singleton c => simp [hexToBytes]
  | cons_cons hi lo rest ih _ =>
    rw [hexToBytes_cons_cons_invalidHex_iff, ih]
    simp only [List.length_cons, List.exists_mem_cons_iff, Nat.add_assoc, Nat.add_mod_right]
    tauto

theorem hexToBytes_length {upperOk : Bool} {t : Text} {b : List Byte} (h : hexToBytes upperOk t = .ok b) :
    2 * b.length = t.length := by
  induction t using List.twoStepInduction generalizing b with
  | nil => obtain rfl : [] = b := Except.ok.inj h; rfl
  | singleton c => cases h
  | cons_cons hi lo rest ih _ =>
    obtain ⟨x, y, bs, -, -, hbs, rfl⟩ := hexToBytes_ok_cons_cons h
    have := ih hbs
    simp only [List.length_cons]
    omega

/-- Byte `i` is made of the characters `2i` and `2i + 1`. -/
theorem hexToBytes_getD {upperOk : Bool} {t : Text} {b : List Byte} (h : hexToBytes upperOk t = .ok b) {i : Nat}
    (hi : i < b.length) :
    ∃ x y, hexValue upperOk (t.getD (2 * i) '0') = some x ∧ hexValue upperOk (t.getD (2 * i + 1) '0') = some y ∧
      b.getD i 0 = x ++ y := by
  induction t using List.twoStepInduction generalizing b i with
  | nil => obtain rfl : [] = b := Except.ok.inj h; cases hi
  | singleton c => cases h
  | cons_cons c d rest ih _ =>
    obtain ⟨x, y, bs, hx, hy, hbs, rfl⟩ := hexToBytes_ok_cons_cons h
    cases i with
    | zero => exact ⟨x, y, hx, hy, rfl⟩
    | succ i => exact ih hbs (Nat.lt_of_succ_lt_succ hi)

/-- Settles O54: characters by their code ranges, texts two characters at a time. -/
theorem hexToBytesLaws : Obligations.HexToBytesLaws := by
  refine fun upperOk t => ⟨hexValue_ne_none_iff_mem upperOk, fun n => hexValue_hexAlphabet upperOk,
    fun n => hexValue_upperHexDigit, hexToBytes_invalidHex_iff upperOk t,
    fun b h => ⟨hexToBytes_length h, fun i hi => ?_⟩⟩
  obtain ⟨x, y, hx, hy, hxy⟩ := hexToBytes_getD h hi
  exact ⟨x, y, hx, hy, by rw [hxy, nibbles_toNat]⟩

end Sys2Proof.Machine
end

section
/-! PROOF. Errors (60_exceptions.md R210, R212, R215, R217, R218): when a command answers an error, and what a step does
to `ERR`. -/

namespace Sys2Proof.Machine

/-! ## The status of a response -/

/-- A command answers an error exactly where it fails with it. -/
theorem exec_status_iff {i : Instr} {s t : State} {r : Response} {e : Status} (h : exec i s = .next t)
    (hr : t.resp = some r) (he : e ≠ .ok) : r.st = e ↔ Fails i s e := by
  constructor
  · rintro rfl
    rcases exec_next h with ⟨e, hf, rfl⟩ | ⟨u, d, -, rfl⟩
    · obtain rfl := Option.some.inj hr
      exact hf
    · obtain rfl := Option.some.inj hr
      exact absurd rfl he
  · intro hf
    obtain rfl := Host.Outcome.next.inj (h.symm.trans hf.exec_eq)
    obtain rfl := Option.some.inj hr
    rfl

/-- Settles O12: the response names the failure, and a command that fails raises its error. -/
theorem failedCommandChangesOnlyErr : Obligations.FailedCommandChangesOnlyErr := by
  intro i s t r h hr hne
  have hf : Fails i s r.st := (exec_status_iff h hr hne).1 rfl
  exact Host.Outcome.next.inj (h.symm.trans hf.exec_eq)

/-! ## Which commands fail with which error -/

/-- The commands that raise each error (R210). -/
theorem Fails.raiser {i : Instr} {s : State} {e : Status} (h : Fails i s e) :
    (e = .eSeq → i = .pad ∨ i = .compress ∨ i = .finalize ∨ ∃ k, i = .rdd k) ∧
      (e = .eArg → (∃ k, i = .rdd k) ∨ ∃ a, i = .rds a) ∧
      (e = .eSize → (∃ b, i = .kpush b) ∨ ∃ b, i = .mpush b) := by
  cases h with
  | pad _ | compress _ | finalize _ | rddPhase _ => simp
  | rddIndex _ _ | rds _ => simp
  | kpush _ | mpush _ => simp

theorem fails_eArg_iff {i : Instr} {s : State} :
    Fails i s .eArg ↔
      (∃ k, i = .rdd k ∧ 32 ≤ k ∧ s.phase = .finalized) ∨ ∃ a, i = .rds a ∧ reservedAddress a = true := by
  constructor
  · intro h
    cases h with
    | rddIndex hp hk => exact .inl ⟨_, rfl, hk, hp⟩
    | rds hw => exact .inr ⟨_, rfl, (window_eq_none_iff _ _).1 hw⟩
  · rintro (⟨k, rfl, hk, hp⟩ | ⟨a, rfl, ha⟩)
    · exact .rddIndex hp hk
    · exact .rds ((window_eq_none_iff _ _).2 ha)

/-- The reserved addresses that a command word can carry. -/
theorem reservedAddress_iff_of_lt {a : Nat} (h : a < 256) :
    reservedAddress a = true ↔ a = 0x02 ∨ a = 0x03 ∨ (0x19 ≤ a ∧ a ≤ 0x1F) ∨ (0x60 ≤ a ∧ a ≤ 0xFF) := by
  rw [reservedAddress, decide_eq_true_iff]
  omega

/-- Settles O17: the failures with `E_ARG`, where the operand of a well-formed `RDS` is at most 0xFF. -/
theorem argErrorExactly : Obligations.ArgErrorExactly := by
  intro i s t r hw h hr
  rw [exec_status_iff h hr (by decide), fails_eArg_iff]
  refine or_congr_right (exists_congr fun a => and_congr_right ?_)
  rintro rfl
  exact reservedAddress_iff_of_lt (of_decide_eq_true hw)

/-! ## `ERR` after a step -/

theorem Succeeds.err_of_clr {s u : State} {d : Byte} (h : Succeeds .clr s u d) : u.err = .ok := by
  cases h with
  | clr => rfl

/-- A step leaves `ERR`, records a failure in it, or clears it on `CLR` or a reset (R218). -/
theorem step_err {s t : State} (h : step s = .next t) :
    t.err = s.err ∨ (t.err ≠ .ok ∧ t.err ≠ .eLen) ∨
      (t.err = .ok ∧
        ∃ e rest, s.host = e :: rest ∧ (e = .command (encode .clr) ∨ e = .reset ∨ ∃ c, e = .resetDuring c)) := by
  rcases step_next h with ⟨-, rfl⟩ | ⟨c, i, rest, hs, hd, hx⟩ | ⟨c, e, rest, -, -, rfl⟩ | ⟨e, rest, hs, he, rfl⟩
  · exact .inl rfl
  · rcases exec_next hx with ⟨e, hf, rfl⟩ | ⟨u, d, hu, rfl⟩
    · obtain ⟨hok, -, hlen⟩ := hf.status
      exact .inr (.inl ⟨hok, hlen⟩)
    · by_cases hi : i = .clr
      · subst hi
        obtain ⟨-, rfl⟩ := encode_of_decode hd
        exact .inr (.inr ⟨hu.err_of_clr, _, rest, hs, .inl rfl⟩)
      · obtain ⟨-, -, herr⟩ := hu.frame
        exact .inl (herr hi)
  · exact .inr (.inl ⟨nofun, nofun⟩)
  · exact .inr (.inr ⟨rfl, e, rest, hs, .inr he⟩)

/-- Settles O13: a command fails or succeeds, and a step that clears a non-zero `ERR` is the last case of `step_err`. -/
theorem errHoldsTheLatestFailure : Obligations.ErrHoldsTheLatestFailure := by
  refine ⟨fun i s t h => ?_, fun s t h hs ht => ?_⟩
  · rcases exec_next h with ⟨e, hf, rfl⟩ | ⟨u, d, hu, rfl⟩
    · exact ⟨⟨e, 0⟩, rfl, fun _ => rfl, fun hok => absurd hok hf.status.1, fun hi => by subst hi; cases hf⟩
    · obtain ⟨-, -, herr⟩ := hu.frame
      exact ⟨⟨.ok, d⟩, rfl, fun hne => absurd rfl hne, fun _ => herr, fun hi => by subst hi; exact hu.err_of_clr⟩
  · rcases step_err h with heq | ⟨hne, -⟩ | ⟨-, hclear⟩
    · exact absurd (heq ▸ ht) hs
    · exact absurd ht hne
    · exact hclear

/-- Settles O15: the codes by definition, the raisers from the failures, and `E_LEN` from the cases of `step_err`. -/
theorem statusCodesAndWhoRaisesThem : Obligations.StatusCodesAndWhoRaisesThem := by
  refine ⟨⟨rfl, rfl, rfl, rfl, rfl, rfl⟩, fun i s t r h hr => ?_, fun s t h hs => ?_⟩
  · by_cases hok : r.st = .ok
    · simp [hok]
    · have hf : Fails i s r.st := (exec_status_iff h hr hok).1 rfl
      obtain ⟨-, hill, hlen⟩ := hf.status
      exact ⟨hill, hlen, hf.raiser⟩
  · rcases step_err h with heq | ⟨-, hne⟩ | ⟨hok, -⟩
    · exact heq ▸ hs
    · exact hne
    · simp [hok]

end Sys2Proof.Machine
end

section
/-! PROOF. Reset (70_reset_and_hazards.md R240, R241): the values it leaves, by the event and by `CLR`. -/

namespace Sys2Proof.Machine

/-! ## The values of the reset state -/

theorem State.resetOf_atReset (p : Params) : (State.resetOf p).AtReset where
  h := rfl
  v := rfl
  w i := Vector.getElem_replicate i.isLt
  t := rfl
  blk := rfl
  nblk := rfl
  phase := rfl
  keyLen := rfl
  msgLen := rfl
  workLen := rfl
  bytes sp a := by rw [State.byteAt, State.resetOf_space, Memory.read_nil]
  err := rfl

/-- The interface fields are not among the listed values. -/
theorem State.AtReset.withInterface {s : State} (h : s.AtReset) (r : Option Response) (events : List HostEvent) :
    { s with resp := r, host := events }.AtReset :=
  { h with }

/-- Settles O8: the reset state at the reference parameters is one of those for all parameters. -/
theorem resetStateHoldsTheListedValues : Obligations.ResetStateHoldsTheListedValues :=
  ⟨State.resetOf_atReset Params.reference, State.resetOf_atReset⟩

/-! ## The reset event and `CLR` -/

theorem resetEngine_atReset (s : State) : (resetEngine s).AtReset :=
  (State.resetOf_atReset s.params).withInterface none s.host

theorem State.AtReset.responded {s : State} (h : s.AtReset) (d : Byte) : (s.responded d).AtReset :=
  h.withInterface (some ⟨.ok, d⟩) s.host

/-- A reset, also one that interrupts a command, is one reset of the engine: the command leaves no trace. -/
theorem step_of_reset {s : State} {e : HostEvent} {rest : List HostEvent} (hs : s.host = e :: rest)
    (he : e = .reset ∨ ∃ c, e = .resetDuring c) : step s = .next (resetEngine { s with host := rest }) := by
  rw [step_event hs]
  rcases he with rfl | ⟨c, rfl⟩ <;> rfl

/-- Settles O9: the event ends in `resetEngine`, and `CLR` in the same state with a response. -/
theorem resetEventAndClrReset : Obligations.ResetEventAndClrReset :=
  ⟨fun _ _ _ hs he => ⟨_, step_of_reset hs he, resetEngine_atReset _, rfl, rfl, rfl⟩,
    fun s => ⟨_, execClr_eq s, (resetEngine_atReset s).responded 0, rfl, rfl, rfl⟩⟩

end Sys2Proof.Machine
end

section
/-! PROOF. Decode and encode agree (30_encoding.md sections 1 and 2), and a step executes the command it decodes. -/

namespace Sys2Proof.Machine

/-- Settles O1: the fields of an encoding are the command's opcode and argument. -/
theorem decodeOfEncode : Obligations.DecodeOfEncode := fun _ => decode_encode

/-- Settles O2: the decoder answers a command only for a word that is its encoding. -/
theorem encodeOfDecode : Obligations.EncodeOfDecode := fun _ _ => encode_of_decode

theorem acceptCommand_of_ok {c : CmdWord} {i : Instr} (h : decode c = .ok i) (s : State) :
    acceptCommand c s = exec i s := by
  rw [acceptCommand, h]

theorem step_command {s : State} {c : CmdWord} {rest : List HostEvent} {i : Instr} (hs : s.host = .command c :: rest)
    (h : decode c = .ok i) : step s = exec i { s with host := rest } := by
  rw [step_event hs, acceptEvent, acceptCommand_of_ok h]

/-- Settles O6: each word decodes by its two fields. -/
theorem listedWordsDecodeAsListed : Obligations.ListedWordsDecodeAsListed := by
  unfold Obligations.ListedWordsDecodeAsListed
  decide

/-- Settles O7: the event is consumed before the command is executed. -/
theorem stepExecutesThePresentedCommand : Obligations.StepExecutesThePresentedCommand :=
  ⟨fun _ _ _ _ => step_command, fun _ => step_idle⟩

end Sys2Proof.Machine
end

section
/-! PROOF. The invariants of every step (10_state.md R15; 20_memory.md R40; 60_exceptions.md R214, R217, R234). -/

namespace Sys2Proof.Machine

/-! ## An invariant of every step -/

/-- What is kept by every success and does not depend on the interface fields, nor on `ERR` unless it is `E_LEN`. -/
structure StepInvariant (P : State → Prop) : Prop where
  interface : ∀ {s e r l}, P s → (e = .eLen → s.err = .eLen) → P { s with err := e, resp := r, host := l }
  succeeds : ∀ {i s u d}, P s → Succeeds i s u d → P u

theorem StepInvariant.exec {P : State → Prop} (hP : StepInvariant P) {i : Instr} {s t : State} (hs : P s)
    (h : exec i s = .next t) : P t := by
  rcases exec_next h with ⟨e, hf, rfl⟩ | ⟨u, d, hu, rfl⟩
  · obtain ⟨-, -, hlen⟩ := hf.status
    exact hP.interface (l := s.host) hs fun he => absurd he hlen
  · exact hP.interface (e := u.err) (l := u.host) (hP.succeeds hs hu) id

/-- A reset does what `CLR` does, and a reserved word raises an error. -/
theorem StepInvariant.step {P : State → Prop} (hP : StepInvariant P) {s t : State} (hs : P s)
    (h : step s = .next t) : P t := by
  have hrest (rest : List HostEvent) : P { s with host := rest } := hP.interface (e := s.err) (r := s.resp) hs id
  rcases step_next h with ⟨-, rfl⟩ | ⟨c, i, rest, -, -, hx⟩ | ⟨c, e, rest, -, -, rfl⟩ | ⟨e, rest, -, -, rfl⟩
  · exact hs
  · exact hP.exec (hrest rest) hx
  · exact hP.interface (hrest rest) nofun
  · exact hP.succeeds (hrest rest) .clr

/-! ## Canonical form -/

theorem Succeeds.wf {i : Instr} {s u : State} {d : Byte} (h : Succeeds i s u d)
    (hs : ∀ sp, Memory.wf (s.space sp)) : ∀ sp, Memory.wf (u.space sp) := by
  cases h with
  | nop | rdd _ _ | rds _ => exact hs
  | kclr | mclr => exact wf_of_space_eq (fun sp => by cases sp <;> rfl) hs
  | clr => exact resetOf_wf s.params
  | @kpush b _ hl =>
    exact wf_of_space_eq (fun sp => by cases sp <;> rfl)
      (memWrite_wf (memWrite_of_le (sp := .keybuf) (a := s.keyLen) (bs := [b]) hl) hs)
  | @mpush b _ hl =>
    exact wf_of_space_eq (fun sp => by cases sp <;> rfl)
      (memWrite_wf (memWrite_of_le (sp := .msgbuf) (a := s.msgLen) (bs := [b]) hl) hs)
  | sha256 _ h => exact uHash_wf h hs
  | hmac h => exact uHmac_wf h hs
  | wload _ h => exact uInit_wf h hs
  | pad _ h => exact uPad_wf h hs
  | compress _ _ h =>
    obtain ⟨hf, hd, hw, -⟩ := uCompress_frame h
    refine wf_of_space_eq (fun sp => ?_) hs
    cases sp
    exacts [hf.keybuf, hf.msgbuf, hw, hf.k0, hf.inner, hd]
  | finalize _ _ h => exact uFinalize_wf h hs

/-- Settles O22: every space is written by `Memory.write` or emptied. -/
theorem stepKeepsSpacesCanonical : Obligations.StepKeepsSpacesCanonical := by
  have hP : StepInvariant fun s => ∀ sp, Memory.wf (s.space sp) :=
    ⟨fun hs _ => wf_of_space_eq (fun sp => by cases sp <;> rfl) hs, fun hs h => h.wf hs⟩
  exact fun s t hs h => hP.step hs h

/-! ## Addresses within the spaces -/

/-- In canonical form the listed addresses are those that do not read 0x00. -/
theorem Memory.below_iff_read {m : Memory} (h : Memory.wf m) (n : Nat) :
    Memory.below m n ↔ ∀ a, n ≤ a → Memory.read m a = 0 := by
  obtain ⟨hs, hz⟩ := h
  constructor
  · exact fun hb a ha => Memory.read_eq_zero_of_not_listed fun c hc => ((hb c hc).trans_le ha).ne
  · intro hr c hc
    by_contra! hge
    exact hz c hc ((Memory.read_of_mem hs hc).symm.trans (hr _ hge))

theorem State.SpacesOk.of_space_eq {s u : State} (hs : s.SpacesOk) (hp : u.params = s.params)
    (h : ∀ sp, u.space sp = s.space sp) : u.SpacesOk := fun sp => by
  rw [h sp, hp]
  exact hs sp

/-- A state that is canonical and reads alike beyond the ends of the spaces lists no address there either. -/
theorem State.SpacesOk.of_reads {s u : State} (hs : s.SpacesOk) (hp : u.params = s.params)
    (hwf : ∀ sp, Memory.wf (u.space sp)) (h : ∀ sp a, sp.size s.params ≤ a → u.byteAt sp a = s.byteAt sp a) :
    u.SpacesOk := by
  refine fun sp => ⟨hwf sp, (Memory.below_iff_read (hwf sp) _).2 fun a ha => ?_⟩
  obtain ⟨hw, hb⟩ := hs sp
  rw [hp] at ha
  exact (h sp a ha).trans ((Memory.below_iff_read hw _).1 hb a ha)

/-- A write inside a space changes no byte beyond the end of any space. -/
theorem memWrite_reads_beyond {sp sp' : Space} {n a : Nat} {bs : List Byte} {s t : State}
    (h : memWrite sp n bs s = .next t) (ha : sp'.size s.params ≤ a) : t.byteAt sp' a = s.byteAt sp' a := by
  obtain ⟨hle, rfl⟩ := memWrite_eq_next h
  by_cases hsp : sp' = sp
  · subst hsp
    rw [State.byteAt, State.space_setSpace_same, Memory.read_write_of_ge (hle.trans ha), State.byteAt]
  · rw [State.byteAt, State.space_setSpace_other _ _ hsp, State.byteAt]

/-- A padded sequence that is within `SEQ_MAX` ends within `WORK`. -/
theorem padded_blocks_le_workMax {p : Params} {n : Nat} (h : n ≤ seqMax p) : 64 * ((n + 8) / 64 + 1) ≤ workMax p :=
  padded_length n ▸ padded_le_workMax h

theorem uHash_reads_beyond {m : List Byte} {s u : State} (hl : m.length ≤ seqMax s.params) (h : uHash m s = .next u)
    {sp : Space} {a : Nat} (ha : sp.size s.params ≤ a) : u.byteAt sp a = s.byteAt sp a := by
  obtain ⟨t, ht, hf, -, -, -, -, -, hwl, -, -, -, -, -, hwork, hdigest⟩ := uHash_spec hl
  cases h.symm.trans ht
  cases sp with
  | keybuf => exact congrArg (Memory.read · a) hf.keybuf
  | msgbuf => exact congrArg (Memory.read · a) hf.msgbuf
  | k0 => exact congrArg (Memory.read · a) hf.k0
  | inner => exact congrArg (Memory.read · a) hf.inner
  | work => exact hwork a (hwl.trans_le ((padded_blocks_le_workMax hl).trans ha))
  | digest => exact hdigest a ha

theorem uHmac_reads_beyond {s u : State} (hk : s.keyLen ≤ s.params.keyMax.val) (hm : s.msgLen ≤ s.params.msgMax.val)
    (h : uHmac s = .next u) {sp : Space} {a : Nat} (ha : sp.size s.params ≤ a) : u.byteAt sp a = s.byteAt sp a := by
  obtain ⟨-, hmac⟩ := hmacCommandComputesTheMac
  obtain ⟨t, -, -, ht, -, -, -, -, -, -, -, -, -, -, hwork, hk0, hbytes⟩ := hmac s hk hm
  cases (Succeeds.hmac h).exec_eq.symm.trans ht
  obtain ⟨hf, -⟩ := uHmac_frame h
  cases sp with
  | keybuf => exact congrArg (Memory.read · a) hf.keybuf
  | msgbuf => exact congrArg (Memory.read · a) hf.msgbuf
  | k0 => exact hk0 a ha
  | inner => exact (hbytes a ha).1
  | digest => exact (hbytes a ha).2
  | work =>
    have hpass {n : Nat} (hn : n ≤ seqMax s.params) : 64 * ((n + 8) / 64 + 1) ≤ a :=
      (padded_blocks_le_workMax hn).trans ha
    exact hwork a (hpass (outer_le_seqMax _)) (hpass ((Nat.add_le_add_left hm 64).trans (msgMax_le_seqMax _)))
      fun _ => hpass (hk.trans (keyMax_le_seqMax _))

/-- A success other than `CLR`, which empties every space, writes within the spaces. -/
theorem Succeeds.reads_beyond {i : Instr} {s u : State} {d : Byte} (h : Succeeds i s u d) (hs : s.RangesOk)
    (hi : i ≠ .clr) {sp : Space} {a : Nat} (ha : sp.size s.params ≤ a) : u.byteAt sp a = s.byteAt sp a := by
  obtain ⟨hk, hm, -⟩ := hs
  cases h with
  | clr => exact absurd rfl hi
  | nop | rdd _ _ | rds _ => rfl
  | kclr | mclr => cases sp <;> rfl
  | @kpush b _ hl =>
    rw [← memWrite_reads_beyond (memWrite_of_le (sp := .keybuf) (a := s.keyLen) (bs := [b]) hl) ha]
    cases sp <;> rfl
  | @mpush b _ hl =>
    rw [← memWrite_reads_beyond (memWrite_of_le (sp := .msgbuf) (a := s.msgLen) (bs := [b]) hl) ha]
    cases sp <;> rfl
  | sha256 _ h => exact uHash_reads_beyond (msgBytes_length_le_seqMax hm) h ha
  | hmac h => exact uHmac_reads_beyond hk hm h ha
  | wload _ h =>
    obtain ⟨v, hv, hu⟩ := andThen_eq_next h
    cases hu
    rw [← memWrite_reads_beyond hv ha]
    cases sp <;> rfl
  | pad _ h =>
    unfold uPad at h
    split at h
    · obtain ⟨v, hv, hu⟩ := andThen_eq_next h
      cases hu
      rw [← memWrite_reads_beyond hv ha]
      cases sp <;> rfl
    · cases h
  | compress _ _ h =>
    rw [uCompress_eq (uCompress_le h)] at h
    cases h
    cases sp <;> rfl
  | finalize _ _ h =>
    obtain ⟨v, hv, hu⟩ := andThen_eq_next h
    cases hu
    rw [← memWrite_reads_beyond hv ha]
    cases sp <;> rfl

/-! ## The outer pass of HMAC is a whole hash -/

/-- The input of the outer pass: `(k xor opad64) ++ inner` (42_hmac.md R143). -/
def outerInput (key msg : List Byte) : Option (List Byte) :=
  (prepareKey key).bind fun k =>
  (xorBytes k ipad64).bind fun innerKey =>
  (Machine.sha256 (concatBytes innerKey msg)).bind fun inner =>
  (xorBytes k opad64).map fun outerKey => concatBytes outerKey inner

/-- Within the capacities the HMAC controller ends in `U_HASH` of the outer input, after passes that leave the operands
(R144). -/
theorem uHmac_eq_uHash {s : State} (hk : s.keyLen ≤ s.params.keyMax.val) (hm : s.msgLen ≤ s.params.msgMax.val) :
    ∃ v m, uHmac s = uHash m v ∧ outerInput s.keyBytes s.msgBytes = some m ∧ m.length ≤ seqMax v.params ∧
      MacFrame s v := by
  obtain ⟨v, ik, hv, hf, hkey, hik, hinner, -⟩ := uKprep_uInner_spec hk hm
  obtain ⟨ok, hok, hol⟩ := xorBytes_k0 v opad64_length
  refine ⟨v, ok ++ v.content .inner 32, ?_, ?_, ?_, hf⟩
  · rw [uHmac, ← andThen_assoc, hv, andThen_next, uOuter_eq hok]
  · simp only [outerInput, concatBytes, hkey, hik, hok, hinner, Option.bind_some, Option.map_some]
  · rw [List.length_append, hol, State.content_length]
    exact outer_le_seqMax v.params

/-! ## The invariant of the machine -/

theorem State.Inv.interface {s : State} (h : s.Inv) {e : Status} {r : Option Response} {l : List HostEvent}
    (he : e = .eLen → s.err = .eLen) : { s with err := e, resp := r, host := l }.Inv where
  spaces := h.spaces.of_space_eq rfl fun sp => by cases sp <;> rfl
  ranges := h.ranges
  blocks := h.blocks
  errOk := fun hl => h.errOk (he hl)
  digestOk := h.digestOk

theorem State.resetOf_inv (p : Params) : (State.resetOf p).Inv where
  spaces := fun sp => ⟨resetOf_wf p sp, by rw [State.resetOf_space]; nofun⟩
  ranges := by simp [State.RangesOk, State.resetOf]
  blocks := by simp [State.BlocksOk, State.resetOf]
  errOk := nofun
  digestOk := nofun

theorem resetEngine_inv (s : State) : (resetEngine s).Inv := (State.resetOf_inv s.params).interface nofun

theorem Succeeds.spacesOk {i : Instr} {s u : State} {d : Byte} (h : Succeeds i s u d) (hs : s.Inv) : u.SpacesOk := by
  by_cases hi : i = .clr
  · subst hi
    cases h
    exact (resetEngine_inv s).spaces
  · obtain ⟨hp, -⟩ := h.frame
    exact hs.spaces.of_reads hp (h.wf fun sp => (hs.spaces sp).1) fun _ _ => h.reads_beyond hs.ranges hi

/-- What `U_HASH` leaves in the counters and in `DIGEST`. -/
theorem uHash_counters {m : List Byte} {s u : State} (hl : m.length ≤ seqMax s.params) (h : uHash m s = .next u) :
    u.phase = .finalized ∧ u.t = 64 ∧ u.workLen ≤ workMax s.params ∧ u.workLen = 64 * u.nblk ∧ 1 ≤ u.nblk ∧
      u.blk = u.nblk ∧ u.digestBytes = finalize u.h := by
  obtain ⟨t, ht, -, hph, ht64, -, hdig, -, hwl, hn, hb, -⟩ := uHash_spec hl
  cases h.symm.trans ht
  have hmax := padded_blocks_le_workMax hl
  refine ⟨hph, ht64, ?_, ?_, ?_, hb, hdig⟩ <;> omega

/-- A whole computation is `U_HASH` of one sequence, at a state with the operands of the first. -/
theorem Succeeds.whole {i : Instr} {s u : State} {d : Byte} (h : Succeeds i s u d) (hi : i = .sha256 ∨ i = .hmac)
    (hs : s.RangesOk) : ∃ v m, uHash m v = .next u ∧ m.length ≤ seqMax v.params ∧ MacFrame s v := by
  obtain ⟨hk, hm, -⟩ := hs
  cases h with
  | sha256 _ h => exact ⟨s, s.msgBytes, h, msgBytes_length_le_seqMax hm, (HashFrame.refl s).mac⟩
  | hmac h =>
    obtain ⟨v, m, hv, -, hl, hf⟩ := uHmac_eq_uHash hk hm
    exact ⟨v, m, hv ▸ h, hl, hf⟩
  | _ => simp at hi

theorem Succeeds.ranges {i : Instr} {s u : State} {d : Byte} (h : Succeeds i s u d) (hs : s.Inv) : u.RangesOk := by
  have hr := hs.ranges
  by_cases hi : i = .sha256 ∨ i = .hmac
  · obtain ⟨hk, hm, -⟩ := hr
    obtain ⟨v, m, hx, hl, hf⟩ := h.whole hi hs.ranges
    obtain ⟨hph, ht, hw, -⟩ := uHash_counters hl hx
    have hg := hf.trans (uHash_frame hx).1.mac
    unfold State.RangesOk
    rw [hg.keyLen, hg.msgLen, hg.params, hph, ht]
    exact ⟨hk, hm, hf.params ▸ hw, le_rfl, nofun⟩
  obtain ⟨hk, hm, hw, ht, hl⟩ := hs.ranges
  cases h with
  | sha256 _ _ | hmac _ => simp at hi
  | nop | rdd _ _ | rds _ => exact hr
  | clr => exact (resetEngine_inv s).ranges
  | kclr => exact ⟨Nat.zero_le _, hm, hw, ht, hl⟩
  | mclr => exact ⟨hk, Nat.zero_le _, hw, ht, hl⟩
  | kpush hle => exact ⟨hle, hm, hw, ht, hl⟩
  | mpush hle => exact ⟨hk, hle, hw, ht, hl⟩
  | wload _ h =>
    have hseq := msgBytes_length_le_seqMax hm
    rw [uInit_eq (hseq.trans (seqMax_le_workMax _))] at h
    cases h
    exact ⟨hk, hm, hseq.trans (seqMax_le_workMax _), ht, fun _ => hseq⟩
  | pad hp h =>
    rw [uPad_eq (hl hp)] at h
    cases h
    exact ⟨hk, hm, padded_le_workMax (hl hp), ht, nofun⟩
  | compress _ _ h =>
    rw [uCompress_eq (uCompress_le h)] at h
    cases h
    exact ⟨hk, hm, hw, le_rfl, nofun⟩
  | finalize _ _ h =>
    rw [uFinalize_eq] at h
    cases h
    exact ⟨hk, hm, hw, ht, nofun⟩

theorem Succeeds.blocks {i : Instr} {s u : State} {d : Byte} (h : Succeeds i s u d) (hs : s.Inv) : u.BlocksOk := by
  have hb := hs.blocks
  by_cases hi : i = .sha256 ∨ i = .hmac
  · obtain ⟨v, m, hx, hl, -⟩ := h.whole hi hs.ranges
    obtain ⟨hph, -, -, hwl, hn, hblk, -⟩ := uHash_counters hl hx
    unfold State.BlocksOk
    rw [hph, hblk, hwl]
    exact ⟨le_rfl, nofun, fun _ => ⟨by omega, hn, by omega⟩, nofun, nofun, fun _ => rfl⟩
  cases h with
  | sha256 _ _ | hmac _ => simp at hi
  | nop | rdd _ _ | rds _ | kclr | mclr | kpush _ | mpush _ => exact hb
  | clr => exact (resetEngine_inv s).blocks
  | wload _ h =>
    obtain ⟨-, -, -, -, -, -, -, hblk, hn, hph⟩ := uInit_frame h
    unfold State.BlocksOk
    rw [hblk, hn, hph]
    exact ⟨le_rfl, fun _ => rfl, fun hne => absurd rfl hne, nofun, nofun, nofun⟩
  | pad _ h =>
    obtain ⟨-, -, -, -, -, -, hwl, hn, hblk, hph⟩ := uPad_frame h
    rw [padded_length] at hwl
    unfold State.BlocksOk
    rw [hblk, hph, hn, hwl]
    exact ⟨Nat.zero_le _, nofun, fun _ => ⟨rfl, by omega, by omega⟩, fun _ => rfl, nofun, nofun⟩
  | compress hp hne h =>
    obtain ⟨hle, -, hn, -⟩ := hb
    obtain ⟨-, -, -, hwl, hnu, hblk, hph⟩ := uCompress_frame h
    have hinit : s.phase ≠ .init := fun h => by simp [h] at hp
    unfold State.BlocksOk
    rw [hblk, hph, hnu, hwl]
    exact ⟨by omega, nofun, fun _ => hn hinit, nofun, fun _ => by omega, nofun⟩
  | finalize hp he h =>
    obtain ⟨hle, -, hn, -⟩ := hb
    obtain ⟨-, -, -, -, -, -, hwl, hblk, hnu, hph⟩ := uFinalize_frame h
    unfold State.BlocksOk
    rw [hblk, hph, hnu, hwl]
    exact ⟨hle, nofun, fun _ => hn (by simp [hp]), nofun, nofun, fun _ => he⟩

theorem Succeeds.digestOk {i : Instr} {s u : State} {d : Byte} (h : Succeeds i s u d) (hs : s.Inv)
    (hf : u.phase = .finalized) : u.digestBytes = Machine.finalize u.h := by
  by_cases hi : i = .sha256 ∨ i = .hmac
  · obtain ⟨v, m, hx, hl, -⟩ := h.whole hi hs.ranges
    obtain ⟨-, -, -, -, -, -, hdig⟩ := uHash_counters hl hx
    exact hdig
  cases h with
  | sha256 _ _ | hmac _ => simp at hi
  | nop | rdd _ _ | rds _ | kclr | mclr | kpush _ | mpush _ => exact hs.digestOk hf
  | clr => cases hf
  | wload _ h =>
    obtain ⟨-, -, -, -, -, -, -, -, -, hph⟩ := uInit_frame h
    simp [hph] at hf
  | pad _ h =>
    obtain ⟨-, -, -, -, -, -, -, -, -, hph⟩ := uPad_frame h
    simp [hph] at hf
  | compress _ _ h =>
    obtain ⟨-, -, -, -, -, -, hph⟩ := uCompress_frame h
    simp [hph] at hf
  | finalize _ _ h =>
    obtain ⟨-, hh, -⟩ := uFinalize_frame h
    rw [digestBytes_uFinalize h, hh]

theorem Succeeds.errOk {i : Instr} {s u : State} {d : Byte} (h : Succeeds i s u d) (hs : s.err ≠ .eLen) :
    u.err ≠ .eLen := by
  obtain ⟨-, -, herr⟩ := h.frame
  by_cases hi : i = .clr
  · subst hi
    exact h.err_of_clr ▸ nofun
  · exact herr hi ▸ hs

theorem Succeeds.inv {i : Instr} {s u : State} {d : Byte} (h : Succeeds i s u d) (hs : s.Inv) : u.Inv :=
  ⟨h.spacesOk hs, h.ranges hs, h.blocks hs, h.errOk hs.errOk, h.digestOk hs⟩

/-- The invariant of the machine and the capacities are kept by every step. -/
theorem stepInvariant_inv (p : Params) : StepInvariant fun s => s.Inv ∧ s.params = p where
  interface := fun ⟨hs, hp⟩ he => ⟨hs.interface he, hp⟩
  succeeds := fun ⟨hs, hp⟩ h => ⟨h.inv hs, h.frame.1.trans hp⟩

/-- Settles O19: every success keeps each part of the invariant. -/
theorem stepKeepsTheInvariant : Obligations.StepKeepsTheInvariant := fun s _ hs h =>
  (stepInvariant_inv s.params).step ⟨hs, rfl⟩ h

/-- Under the invariant every step answers: every command fails or succeeds. -/
theorem step_progress {s : State} (hs : s.Inv) : ∃ t, step s = .next t := by
  cases hh : s.host with
  | nil => exact ⟨s, step_idle hh⟩
  | cons e rest =>
    rw [step_event hh]
    cases e with
    | reset | resetDuring _ => exact ⟨_, rfl⟩
    | command c =>
      rw [acceptEvent, acceptCommand]
      cases decode c with
      | error _ => exact ⟨_, rfl⟩
      | ok i =>
        have hrest : { s with host := rest }.Inv := hs.interface (e := s.err) (r := s.resp) id
        rcases fails_or_succeeds i hrest with ⟨e, hf⟩ | ⟨u, d, hu⟩
        · exact ⟨_, hf.exec_eq⟩
        · exact ⟨_, hu.exec_eq⟩

/-- Settles O20: the step of `step_progress` keeps the invariant. -/
theorem engineIsNeverStuck : Obligations.EngineIsNeverStuck := by
  intro s hs
  obtain ⟨t, ht⟩ := step_progress hs
  exact ⟨t, ht, (stepKeepsTheInvariant s t hs ht).1⟩

end Sys2Proof.Machine
end

section
/-! PROOF. A readable digest is the `sha256` of what was loaded (60_exceptions.md R214). -/

namespace Sys2Proof.Machine

/-! ## What the micro-operations do to the message being hashed -/

/-- The message being hashed depends on the hash unit alone. -/
theorem State.HashesTo.of_eq {s u : State} {m : List Byte} (h : s.HashesTo m) (hp : u.params = s.params)
    (hh : u.h = s.h) (hblk : u.blk = s.blk) (hph : u.phase = s.phase) (hw : u.work = s.work)
    (hwl : u.workLen = s.workLen) (hd : u.digest = s.digest) : u.HashesTo m := by
  have hwb : u.workBytes = s.workBytes := by simp only [State.workBytes, State.content, State.space_work, hw, hwl]
  have hdb : u.digestBytes = s.digestBytes := by simp only [State.digestBytes, State.content, State.space_digest, hd]
  exact ⟨hp ▸ h.length, hph ▸ hwb ▸ h.unpadded, hph ▸ hwb ▸ h.padded, hh ▸ hblk ▸ hwb ▸ h.state,
    hph ▸ hdb ▸ h.readable⟩

theorem State.resetOf_hashesTo (p : Params) : (State.resetOf p).HashesTo [] :=
  ⟨Nat.zero_le _, fun _ => rfl, fun h => absurd rfl h, rfl, nofun⟩

theorem uInit_hashesTo {m : List Byte} {s u : State} (hl : m.length ≤ seqMax s.params) (h : uInit m s = .next u) :
    u.HashesTo m := by
  obtain ⟨hf, -, -, -, -, -, hh, hblk, -, hph⟩ := uInit_frame h
  refine ⟨hf.params ▸ hl, fun _ => workBytes_uInit h, fun hne => absurd hph hne, ?_, fun hfin => ?_⟩
  · rw [hh, hblk, hashBlocks]
  · simp [hph] at hfin

/-- `U_PAD` turns the content into its padding; no block of it is in `H` yet. -/
theorem uPad_hashesTo {m : List Byte} {s u : State} (hm : s.HashesTo m) (hp : s.phase = .init) (hblk : s.blk = 0)
    (h : uPad s = .next u) : u.HashesTo m := by
  obtain ⟨hf, -, hh, -, -, -, -, -, hblku, hph⟩ := uPad_frame h
  have hml : s.workLen = m.length := by rw [← hm.unpadded hp, State.workBytes_length]
  have hpad : pad m = some u.workBytes := by
    rw [pad_of_le (hm.length.trans (seqMax_le_limit _)), workBytes_uPad h, hm.unpadded hp, hml]
  refine ⟨hf.params ▸ hm.length, fun hi => ?_, fun _ => hpad, ?_, fun hfin => ?_⟩
  · simp [hph] at hi
  · rw [hh, hm.state, hblk, hblku, hashBlocks, hashBlocks]
  · simp [hph] at hfin

/-- Under the invariant `U_COMPRESS` compresses block `BLK` of the content of `WORK`. -/
theorem uCompress_eq_blockAt {s : State} (hs : s.Inv) (hp : s.phase = .padded ∨ s.phase = .compressing)
    (hne : s.blk ≠ s.nblk) :
    uCompress s = .next
      { s with
        w := schedule (blockAt s.workBytes s.blk)
        v := rounds (schedule (blockAt s.workBytes s.blk)) (WorkVars.ofHash s.h)
        t := 64
        h := compress s.h (blockAt s.workBytes s.blk)
        blk := s.blk + 1, phase := .compressing } := by
  have hinit : s.phase ≠ .init := fun h => by simp [h] at hp
  obtain ⟨hle, -⟩ := hs.blocks
  have hu := uCompress_eq (block_le_workMax hs.ranges hs.blocks hinit hne)
  rwa [toBlock_bytes (block_le_workLen hs.blocks hinit (hle.lt_of_ne hne))] at hu

theorem uCompress_hashesTo {m : List Byte} {s u : State} (hs : s.Inv) (hm : s.HashesTo m)
    (hp : s.phase = .padded ∨ s.phase = .compressing) (hne : s.blk ≠ s.nblk) (h : uCompress s = .next u) :
    u.HashesTo m := by
  have hinit : s.phase ≠ .init := fun h => by simp [h] at hp
  rw [uCompress_eq_blockAt hs hp hne] at h
  cases h
  exact ⟨hm.length, nofun, fun _ => hm.padded hinit, congrArg (compress · _) hm.state, nofun⟩

/-- Once every block is in `H`, its serialisation is the digest. -/
theorem uFinalize_hashesTo {m : List Byte} {s u : State} (hs : s.Inv) (hm : s.HashesTo m)
    (hp : s.phase = .compressing) (he : s.blk = s.nblk) (h : uFinalize s = .next u) : u.HashesTo m := by
  have hinit : s.phase ≠ .init := by simp [hp]
  obtain ⟨-, -, hblocks, -⟩ := hs.blocks
  obtain ⟨hn, -⟩ := hblocks hinit
  have hpad := hm.padded hinit
  have hsha : sha256 m = some u.digestBytes := by
    rw [digestBytes_uFinalize h, hm.state, he, hn, sha256, hpad, Option.map_some, State.workBytes_length]
  rw [uFinalize_eq] at h
  cases h
  exact ⟨hm.length, nofun, fun _ => hpad, hm.state, fun _ => hsha⟩

theorem uHash_hashesTo {m : List Byte} {s u : State} (hl : m.length ≤ seqMax s.params) (h : uHash m s = .next u) :
    u.HashesTo m := by
  obtain ⟨t, ht, hf, hph, -, hsha, -, hpad, -, -, hblk, hh, -⟩ := uHash_spec hl
  cases h.symm.trans ht
  exact ⟨hf.params ▸ hl, fun hi => by simp [hph] at hi, fun _ => hpad, hblk ▸ hh, fun _ => hsha⟩

/-! ## The step -/

theorem Succeeds.digestTrue {i : Instr} {s u : State} {d : Byte} (h : Succeeds i s u d) (hs : s.Inv)
    (hd : s.DigestTrue) : u.DigestTrue := by
  by_cases hi : i = .sha256 ∨ i = .hmac
  · obtain ⟨v, m, hx, hl, -⟩ := h.whole hi hs.ranges
    exact ⟨m, uHash_hashesTo hl hx⟩
  obtain ⟨m, hm⟩ := hd
  cases h with
  | sha256 _ _ | hmac _ => simp at hi
  | nop | rdd _ _ | rds _ => exact ⟨m, hm⟩
  | kclr | mclr | kpush _ | mpush _ => exact ⟨m, hm.of_eq rfl rfl rfl rfl rfl rfl rfl⟩
  | clr => exact ⟨[], (State.resetOf_hashesTo s.params).of_eq rfl rfl rfl rfl rfl rfl rfl⟩
  | wload hl h => exact ⟨s.msgBytes, uInit_hashesTo (msgBytes_length_le_seqMax hl) h⟩
  | pad hp h =>
    obtain ⟨hle, hn, -⟩ := hs.blocks
    exact ⟨m, uPad_hashesTo hm hp (by rw [hn hp] at hle; omega) h⟩
  | compress hp hne h => exact ⟨m, uCompress_hashesTo hs hm hp hne h⟩
  | finalize hp he h => exact ⟨m, uFinalize_hashesTo hs hm hp he h⟩

theorem stepInvariant_digestTrue : StepInvariant fun s => s.Inv ∧ s.DigestTrue where
  interface := fun ⟨hs, m, hm⟩ he => ⟨hs.interface he, m, hm.of_eq rfl rfl rfl rfl rfl rfl rfl⟩
  succeeds := fun ⟨hs, hd⟩ h => ⟨h.inv hs, h.digestTrue hs hd⟩

/-- Settles O21: every micro-operation keeps the message being hashed, or loads one. -/
theorem stepKeepsReadableDigestsTrue : Obligations.StepKeepsReadableDigestsTrue := fun _ _ hs hd h =>
  (stepInvariant_digestTrue.step ⟨hs, hd⟩ h).2

/-- Settles O11: at reset the empty message is loaded. -/
theorem resetMeetsTheInvariants : Obligations.ResetMeetsTheInvariants := fun p =>
  ⟨State.resetOf_inv p, [], State.resetOf_hashesTo p⟩

end Sys2Proof.Machine
end

section
/-! PROOF. Non-interference of the unobservable state (10_state.md R38; 20_memory.md section 5). -/

namespace Sys2Proof.Machine

/-! ## The view before and after a whole hash -/

/-- The part of the view that no computation writes. -/
structure SameOperands (s s' : State) : Prop where
  params : s.params = s'.params
  err : s.err = s'.err
  keyLen : s.keyLen = s'.keyLen
  msgLen : s.msgLen = s'.msgLen
  key : s.keyBytes = s'.keyBytes
  msg : s.msgBytes = s'.msgBytes
  resp : s.resp = s'.resp
  host : s.host = s'.host

theorem SameView.operands {s s' : State} (h : SameView s s') : SameOperands s s' :=
  { h with }

theorem MacFrame.keyBytes {s t : State} (h : MacFrame s t) : t.keyBytes = s.keyBytes := by
  simp only [State.keyBytes, State.content, State.space_keybuf, h.keybuf, h.keyLen]

theorem MacFrame.msgBytes {s t : State} (h : MacFrame s t) : t.msgBytes = s.msgBytes := by
  simp only [State.msgBytes, State.content, State.space_msgbuf, h.msgbuf, h.msgLen]

theorem SameOperands.of_macFrame {s s' t t' : State} (h : SameOperands s s') (hf : MacFrame s t)
    (hf' : MacFrame s' t') : SameOperands t t' where
  params := by rw [hf.params, hf'.params, h.params]
  err := by rw [hf.err, hf'.err, h.err]
  keyLen := by rw [hf.keyLen, hf'.keyLen, h.keyLen]
  msgLen := by rw [hf.msgLen, hf'.msgLen, h.msgLen]
  key := by rw [hf.keyBytes, hf'.keyBytes, h.key]
  msg := by rw [hf.msgBytes, hf'.msgBytes, h.msg]
  resp := by rw [hf.resp, hf'.resp, h.resp]
  host := by rw [hf.host, hf'.host, h.host]

/-- `U_HASH(m)` makes the whole view a function of `m` and the operands. -/
theorem uHash_sameView {m : List Byte} {s s' u u' : State} (h : SameOperands s s')
    (hl : m.length ≤ seqMax s.params) (hu : uHash m s = .next u) (hu' : uHash m s' = .next u') : SameView u u' := by
  obtain ⟨t, ht, hf, hph, ht64, hsha, -, hpad, hwl, hn, hb, hh, hw, hv, -⟩ := uHash_spec hl
  obtain ⟨t', ht', hf', hph', ht64', hsha', -, hpad', hwl', hn', hb', hh', hw', hv', -⟩ :=
    uHash_spec (h.params ▸ hl)
  cases hu.symm.trans ht
  cases hu'.symm.trans ht'
  have hwork : u.workBytes = u'.workBytes := Option.some.inj (hpad.symm.trans hpad')
  have hops := h.of_macFrame hf.mac hf'.mac
  exact { hops with
    h := by rw [hh, hh', hwork, hn, hn']
    v := by rw [hv, hv', hw, hw', hwork, hn, hn']
    t := by rw [ht64, ht64']
    blk := by rw [hb, hb', hn, hn']
    nblk := by rw [hn, hn']
    phase := by rw [hph, hph']
    workLen := by rw [hwl, hwl']
    work := hwork
    digest := fun _ => Option.some.inj (hsha.symm.trans hsha') }

/-! ## One command -/

theorem SameView.window_eq {s s' : State} (h : SameView s s') (a : Nat) : window s a = window s' a := by
  simp only [window, statusByte, dvalid, counterWords, h.phase, h.err, h.keyLen, h.msgLen, h.workLen, h.nblk, h.blk,
    h.t, h.h, h.v]

theorem SameView.fails {i : Instr} {s s' : State} {e : Status} (hv : SameView s s') (h : Fails i s e) :
    Fails i s' e := by
  cases h with
  | pad h => exact .pad (hv.phase ▸ h)
  | compress h => exact .compress (hv.phase ▸ hv.blk ▸ hv.nblk ▸ h)
  | finalize h => exact .finalize (hv.phase ▸ hv.blk ▸ hv.nblk ▸ h)
  | rddPhase h => exact .rddPhase (hv.phase ▸ h)
  | rddIndex h hi => exact .rddIndex (hv.phase ▸ h) hi
  | rds h => exact .rds (hv.window_eq _ ▸ h)
  | kpush h => exact .kpush (hv.keyLen ▸ hv.params ▸ h)
  | mpush h => exact .mpush (hv.msgLen ▸ hv.params ▸ h)

/-- Bytes written at the end of a content extend it. -/
theorem Memory.bytes_write_end (m : Memory) (n : Nat) (bs : List Byte) :
    Memory.bytes (Memory.write m n bs) 0 (n + bs.length) = Memory.bytes m 0 n ++ bs := by
  rw [Memory.bytes_append, Memory.bytes_write_other _ (.inl (by omega)), Nat.zero_add, Memory.bytes_write_same]

/-- In a state of the same view a command succeeds alike. -/
theorem SameView.succeeds {i : Instr} {s s' u : State} {d : Byte} (hv : SameView s s') (hs : s.Inv) (hs' : s'.Inv)
    (h : Succeeds i s u d) : ∃ u', Succeeds i s' u' d ∧ SameView u u' := by
  obtain ⟨hk, hm, -, -, hwl⟩ := hs.ranges
  obtain ⟨hk', hm', -, -, hwl'⟩ := hs'.ranges
  have hseq := msgBytes_length_le_seqMax hm
  cases h with
  | nop => exact ⟨s', .nop, hv⟩
  | clr =>
    exact ⟨_, .clr, ⟨hv.params, rfl, rfl, rfl, rfl, rfl, rfl, rfl, rfl, rfl, rfl, rfl, rfl, rfl, fun _ => rfl, rfl,
      hv.host⟩⟩
  | kclr => exact ⟨_, .kclr, { hv with keyLen := rfl, key := rfl }⟩
  | mclr => exact ⟨_, .mclr, { hv with msgLen := rfl, msg := rfl }⟩
  | @kpush b _ hle =>
    refine ⟨_, .kpush (hv.keyLen ▸ hv.params ▸ hle), { hv with keyLen := congrArg (· + 1) hv.keyLen, key := ?_ }⟩
    exact (Memory.bytes_write_end s.keybuf s.keyLen [b]).trans
      ((congrArg (· ++ [b]) hv.key).trans (Memory.bytes_write_end s'.keybuf s'.keyLen [b]).symm)
  | @mpush b _ hle =>
    refine ⟨_, .mpush (hv.msgLen ▸ hv.params ▸ hle), { hv with msgLen := congrArg (· + 1) hv.msgLen, msg := ?_ }⟩
    exact (Memory.bytes_write_end s.msgbuf s.msgLen [b]).trans
      ((congrArg (· ++ [b]) hv.msg).trans (Memory.bytes_write_end s'.msgbuf s'.msgLen [b]).symm)
  | sha256 _ hu =>
    obtain ⟨u', hu', -⟩ := uHash_spec (m := s'.msgBytes) (s := s') (msgBytes_length_le_seqMax hm')
    exact ⟨u', .sha256 hm' hu', uHash_sameView hv.operands hseq hu (hv.msg ▸ hu')⟩
  | hmac hu =>
    obtain ⟨x, m, hx, hin, hl, hf⟩ := uHmac_eq_uHash hk hm
    obtain ⟨x', m', hx', hin', hl', hf'⟩ := uHmac_eq_uHash hk' hm'
    rw [hv.key, hv.msg, hin'] at hin
    cases hin
    obtain ⟨u', hu', -⟩ := uHash_spec hl'
    exact ⟨u', .hmac (hx'.trans hu'), uHash_sameView (hv.operands.of_macFrame hf hf') hl (hx.symm.trans hu) hu'⟩
  | wload _ hu =>
    have hu' := uInit_eq (m := s'.msgBytes) (s := s')
      ((msgBytes_length_le_seqMax hm').trans (seqMax_le_workMax _))
    refine ⟨_, .wload hm' hu', ?_⟩
    have hwork := (workBytes_uInit hu).trans (hv.msg.trans (workBytes_uInit hu').symm)
    rw [uInit_eq (hseq.trans (seqMax_le_workMax _))] at hu
    cases hu
    exact { hv with
      workLen := by simp only [State.msgBytes_length, hv.msgLen]
      h := rfl, blk := rfl, nblk := rfl, phase := rfl, work := hwork, digest := nofun }
  | pad hp hu =>
    have hp' := hv.phase ▸ hp
    have hu' := uPad_eq (hwl' hp')
    refine ⟨_, .pad hp' hu', ?_⟩
    have hwork := (workBytes_uPad hu).trans
      (((congrArg₂ (· ++ padTail ·) hv.work hv.workLen)).trans (workBytes_uPad hu').symm)
    rw [uPad_eq (hwl hp)] at hu
    cases hu
    exact { hv with
      workLen := by simp only [hv.workLen]
      nblk := by simp only [hv.workLen]
      blk := rfl, phase := rfl, work := hwork, digest := nofun }
  | compress hp hne hu =>
    have hp' := hv.phase ▸ hp
    have hne' := hv.blk ▸ hv.nblk ▸ hne
    refine ⟨_, .compress hp' hne' (uCompress_eq_blockAt hs' hp' hne'), ?_⟩
    rw [uCompress_eq_blockAt hs hp hne] at hu
    cases hu
    exact { hv with
      h := by simp only [hv.h, hv.work, hv.blk]
      v := by simp only [hv.h, hv.work, hv.blk]
      t := rfl
      blk := by simp only [hv.blk]
      phase := rfl, work := hv.work, digest := nofun }
  | finalize hp he hu =>
    have hu' := uFinalize_eq s'
    refine ⟨_, .finalize (hv.phase ▸ hp) (hv.blk ▸ hv.nblk ▸ he) hu', ?_⟩
    have hdigest := (digestBytes_uFinalize hu).trans ((congrArg finalize hv.h).trans (digestBytes_uFinalize hu').symm)
    rw [uFinalize_eq] at hu
    cases hu
    exact { hv with phase := rfl, digest := fun _ => hdigest }
  | @rdd k _ hp hi =>
    have hbyte : s.byteAt .digest k = s'.byteAt .digest k := by
      rw [← State.content_getD s .digest hi, ← State.content_getD s' .digest hi]
      exact congrArg (List.getD · k 0) (hv.digest hp)
    exact ⟨s', hbyte ▸ .rdd (hv.phase ▸ hp) hi, hv⟩
  | rds hw => exact ⟨s', .rds (hv.window_eq _ ▸ hw), hv⟩

/-! ## One step -/

theorem SameView.raised {s s' : State} (h : SameView s s') (e : Status) : SameView (s.raised e) (s'.raised e) :=
  { h with err := rfl, resp := rfl }

theorem SameView.exec {s s' : State} (hv : SameView s s') (hs : s.Inv) (hs' : s'.Inv) (i : Instr) :
    ∃ t t', exec i s = .next t ∧ exec i s' = .next t' ∧ SameView t t' := by
  rcases fails_or_succeeds i hs with ⟨e, hf⟩ | ⟨u, d, hu⟩
  · exact ⟨_, _, hf.exec_eq, (hv.fails hf).exec_eq, hv.raised e⟩
  · obtain ⟨u', hu', hvu⟩ := hv.succeeds hs hs' hu
    exact ⟨_, _, hu.exec_eq, hu'.exec_eq, { hvu with resp := rfl }⟩

/-- Settles O42: both states take the same event, and a command fails or succeeds alike. -/
theorem unobservableStateStaysUnobserved : Obligations.UnobservableStateStaysUnobserved := by
  intro s s' hs hs' hv
  cases hh : s.host with
  | nil => exact ⟨s, s', step_idle hh, step_idle (hv.host ▸ hh), hv⟩
  | cons e rest =>
    rw [step_event hh, step_event (hv.host ▸ hh)]
    have hrest : SameView { s with host := rest } { s' with host := rest } := { hv with host := rfl }
    have hinv : { s with host := rest }.Inv := hs.interface (e := s.err) (r := s.resp) id
    have hinv' : { s' with host := rest }.Inv := hs'.interface (e := s'.err) (r := s'.resp) id
    cases e with
    | reset | resetDuring _ =>
      obtain ⟨u', hu', hvu⟩ := hrest.succeeds hinv hinv' .clr
      cases hu'
      exact ⟨_, _, rfl, rfl, hvu⟩
    | command c =>
      simp only [acceptEvent, acceptCommand]
      cases decode c with
      | error _ => exact ⟨_, _, rfl, rfl, hrest.raised .eIllegal⟩
      | ok i => exact hrest.exec hinv hinv' i

/-! ## The reads show no operand space -/

/-- Settles O34: `RDD` reads `DIGEST` only where it is readable, and the window shows no byte of a space. -/
theorem readsShowNoOperandSpace : Obligations.ReadsShowNoOperandSpace := by
  intro i s s' t t' hi hs' hd h h'
  have hph : s'.phase = s.phase := by rw [hs']
  rcases hi with ⟨k, rfl⟩ | ⟨a, rfl⟩
  · rcases execRdd_next h with ⟨hp, rfl⟩ | ⟨hp, hk, rfl⟩ | ⟨hp, hk, rfl⟩
    · cases h'.symm.trans (Fails.rddPhase (hph ▸ hp)).exec_eq
      rfl
    · cases h'.symm.trans (Fails.rddIndex (hph ▸ hp) hk).exec_eq
      rfl
    · cases h'.symm.trans (Succeeds.rdd (hph ▸ hp) hk).exec_eq
      simp only [State.responded, State.byteAt, State.space_digest, hd hp]
  · have hw : window s' a = window s a := by
      rw [hs']
      rfl
    rcases execRds_next h with ⟨hn, rfl⟩ | ⟨b, hb, rfl⟩
    · cases h'.symm.trans (Fails.rds (hw.trans hn)).exec_eq
      rfl
    · cases h'.symm.trans (Succeeds.rds (hw.trans hb)).exec_eq
      rfl

end Sys2Proof.Machine
end

section
/-! PROOF. The errors `E_SEQ` and `E_SIZE` (60_exceptions.md R214, R216, R211) and the stage commands in order
(41_sha256_stages.md section 3). -/

namespace Sys2Proof.Machine

theorem compress_in_order_iff (s : State) :
    ((s.phase = .padded ∨ s.phase = .compressing) ∧ s.blk ≠ s.nblk) ↔
      ¬(s.phase = .init ∨ s.phase = .finalized ∨ s.blk = s.nblk) := by
  cases s.phase <;> simp

theorem fails_eSeq_iff {i : Instr} {s : State} :
    Fails i s .eSeq ↔
      (i = .pad ∧ s.phase ≠ .init) ∨
      (i = .compress ∧ (s.phase = .init ∨ s.phase = .finalized ∨ s.blk = s.nblk)) ∨
      (i = .finalize ∧ (s.phase ≠ .compressing ∨ s.blk ≠ s.nblk)) ∨
      ((∃ k, i = .rdd k) ∧ s.phase ≠ .finalized) := by
  constructor
  · intro h
    cases h with
    | pad h => exact .inl ⟨rfl, h⟩
    | compress h => exact .inr (.inl ⟨rfl, by rwa [compress_in_order_iff, not_not] at h⟩)
    | finalize h => exact .inr (.inr (.inl ⟨rfl, not_and_or.1 h⟩))
    | rddPhase h => exact .inr (.inr (.inr ⟨⟨_, rfl⟩, h⟩))
  · rintro (⟨rfl, h⟩ | ⟨rfl, h⟩ | ⟨rfl, h⟩ | ⟨⟨k, rfl⟩, h⟩)
    · exact .pad h
    · exact .compress (by rwa [compress_in_order_iff, not_not])
    · exact .finalize (not_and_or.2 h)
    · exact .rddPhase h

/-- Settles O16: the failures with `E_SEQ`. -/
theorem seqErrorExactly : Obligations.SeqErrorExactly := fun _ _ _ _ h hr =>
  (exec_status_iff h hr (by decide)).trans fails_eSeq_iff

theorem fails_eSize_iff {i : Instr} {s : State} :
    Fails i s .eSize ↔
      ((∃ b, i = .kpush b) ∧ s.keyLen = s.params.keyMax.val) ∨
      ((∃ b, i = .mpush b) ∧ s.msgLen = s.params.msgMax.val) := by
  constructor
  · intro h
    cases h with
    | kpush h => exact .inl ⟨⟨_, rfl⟩, h⟩
    | mpush h => exact .inr ⟨⟨_, rfl⟩, h⟩
  · rintro (⟨⟨b, rfl⟩, h⟩ | ⟨⟨b, rfl⟩, h⟩)
    · exact .kpush h
    · exact .mpush h

/-- None of the seven commands of R211 has a failure. -/
theorem not_fails_of_mem {i : Instr} (hi : i ∈ [Instr.sha256, .hmac, .wload, .nop, .clr, .kclr, .mclr]) (s : State)
    (e : Status) : ¬Fails i s e := by
  intro h
  cases h <;> simp at hi

/-- Settles O18: the failures with `E_SIZE`; a command without failures answers success. -/
theorem sizeErrorExactlyAndCommandsThatNeverFail : Obligations.SizeErrorExactlyAndCommandsThatNeverFail := by
  refine fun i s t r h hr => ⟨(exec_status_iff h hr (by decide)).trans fails_eSize_iff, fun hi => ?_⟩
  by_contra hne
  exact not_fails_of_mem hi s r.st ((exec_status_iff h hr hne).1 rfl)

/-! ## The accepted stage commands -/

/-- A command is accepted, with data 0x00, exactly where it does not fail, unless it is a read. -/
theorem accepted_iff_not_fails {i : Instr} {s : State} (hs : s.Inv) (hi : ¬((∃ k, i = .rdd k) ∨ ∃ a, i = .rds a)) :
    (∃ t, exec i s = .next t ∧ t.resp = some ⟨.ok, 0⟩) ↔ ∀ e, ¬Fails i s e := by
  constructor
  · rintro ⟨t, ht, hr⟩ e hf
    cases ht.symm.trans hf.exec_eq
    obtain ⟨hok, -⟩ := hf.status
    exact hok (congrArg Response.st (Option.some.inj hr))
  · intro hn
    rcases fails_or_succeeds i hs with ⟨e, hf⟩ | ⟨u, d, hu⟩
    · exact absurd hf (hn e)
    · have hd : d = 0 := by
        by_contra hne
        exact hi (hu.read_of_data_ne_zero hne)
      exact ⟨u.responded d, hu.exec_eq, hd ▸ rfl⟩

theorem fails_pad_iff {s : State} {e : Status} : Fails .pad s e ↔ e = .eSeq ∧ s.phase ≠ .init :=
  ⟨fun h => by cases h with | pad h => exact ⟨rfl, h⟩, fun ⟨he, h⟩ => he ▸ .pad h⟩

theorem fails_compress_iff {s : State} {e : Status} :
    Fails .compress s e ↔ e = .eSeq ∧ ¬((s.phase = .padded ∨ s.phase = .compressing) ∧ s.blk ≠ s.nblk) :=
  ⟨fun h => by cases h with | compress h => exact ⟨rfl, h⟩, fun ⟨he, h⟩ => he ▸ .compress h⟩

theorem fails_finalize_iff {s : State} {e : Status} :
    Fails .finalize s e ↔ e = .eSeq ∧ ¬(s.phase = .compressing ∧ s.blk = s.nblk) :=
  ⟨fun h => by cases h with | finalize h => exact ⟨rfl, h⟩, fun ⟨he, h⟩ => he ▸ .finalize h⟩

/-- Settles O37: each stage command is accepted where its own check holds; in `PADDED` a block is left. -/
theorem oneStageCommandIsAccepted : Obligations.OneStageCommandIsAccepted := by
  intro s hs
  obtain ⟨-, -, hn, hpad, -, -⟩ := hs.blocks
  have hleft (hp : s.phase = .padded) : s.blk ≠ s.nblk := by
    obtain ⟨-, hone, -⟩ := hn (by simp [hp])
    rw [hpad hp]
    omega
  have hP := accepted_iff_not_fails (i := .pad) hs (by simp)
  have hC := accepted_iff_not_fails (i := .compress) hs (by simp)
  have hF := accepted_iff_not_fails (i := .finalize) hs (by simp)
  simp only [fails_pad_iff, fails_compress_iff, fails_finalize_iff, not_and, forall_eq, not_not] at hP hC hF
  simp only [hP, hC, hF]
  refine ⟨fun hp => by simp [hp], fun hp => ?_, fun ⟨hp, he⟩ => by simp [hp, he], fun hp => by simp [hp]⟩
  rcases hp with hp | ⟨hp, hne⟩
  · simp [hp, hleft hp]
  · simp [hp, hne]

end Sys2Proof.Machine
end

section
/-! PROOF. Which command writes which piece of state (10_state.md section 1), and what does not disturb a finished
result (70_reset_and_hazards.md section 3). -/

namespace Sys2Proof.Machine

section
variable {i : Instr} {s u : State} {d : Byte}

theorem Succeeds.h_eq (h : Succeeds i s u d) (hi : i ∉ [Instr.clr, .sha256, .hmac, .wload, .compress]) :
    u.h = s.h := by
  cases h with
  | nop | kclr | mclr | kpush _ | mpush _ | rdd _ _ | rds _ => rfl
  | clr | sha256 _ _ | hmac _ | wload _ _ | compress _ _ _ => simp at hi
  | pad _ h =>
    obtain ⟨-, -, hh, -⟩ := uPad_frame h
    exact hh
  | finalize _ _ h =>
    obtain ⟨-, hh, -⟩ := uFinalize_frame h
    exact hh

theorem Succeeds.vwt_eq (h : Succeeds i s u d) (hi : i ∉ [Instr.clr, .sha256, .hmac, .compress]) :
    u.v = s.v ∧ u.w = s.w ∧ u.t = s.t := by
  cases h with
  | nop | kclr | mclr | kpush _ | mpush _ | rdd _ _ | rds _ => exact ⟨rfl, rfl, rfl⟩
  | clr | sha256 _ _ | hmac _ | compress _ _ _ => simp at hi
  | wload _ h =>
    obtain ⟨-, -, hv, hw, ht, -⟩ := uInit_frame h
    exact ⟨hv, hw, ht⟩
  | pad _ h =>
    obtain ⟨-, -, -, hv, hw, ht, -⟩ := uPad_frame h
    exact ⟨hv, hw, ht⟩
  | finalize _ _ h =>
    obtain ⟨-, -, hv, hw, ht, -⟩ := uFinalize_frame h
    exact ⟨hv, hw, ht⟩

theorem Succeeds.blk_eq (h : Succeeds i s u d) (hi : i ∉ [Instr.clr, .sha256, .hmac, .wload, .pad, .compress]) :
    u.blk = s.blk := by
  cases h with
  | nop | kclr | mclr | kpush _ | mpush _ | rdd _ _ | rds _ => rfl
  | clr | sha256 _ _ | hmac _ | wload _ _ | pad _ _ | compress _ _ _ => simp at hi
  | finalize _ _ h =>
    obtain ⟨-, -, -, -, -, -, -, hb, -⟩ := uFinalize_frame h
    exact hb

theorem Succeeds.work_eq (h : Succeeds i s u d) (hi : i ∉ [Instr.clr, .sha256, .hmac, .wload, .pad]) :
    u.nblk = s.nblk ∧ u.work = s.work ∧ u.workLen = s.workLen := by
  cases h with
  | nop | kclr | mclr | kpush _ | mpush _ | rdd _ _ | rds _ => exact ⟨rfl, rfl, rfl⟩
  | clr | sha256 _ _ | hmac _ | wload _ _ | pad _ _ => simp at hi
  | compress _ _ h =>
    obtain ⟨-, -, hw, hl, hn, -⟩ := uCompress_frame h
    exact ⟨hn, hw, hl⟩
  | finalize _ _ h =>
    obtain ⟨-, -, -, -, -, hw, hl, -, hn, -⟩ := uFinalize_frame h
    exact ⟨hn, hw, hl⟩

theorem Succeeds.digest_eq (h : Succeeds i s u d) (hi : i ∉ [Instr.clr, .sha256, .hmac, .finalize]) :
    u.digest = s.digest := by
  cases h with
  | nop | kclr | mclr | kpush _ | mpush _ | rdd _ _ | rds _ => rfl
  | clr | sha256 _ _ | hmac _ | finalize _ _ _ => simp at hi
  | wload _ h =>
    obtain ⟨-, hd, -⟩ := uInit_frame h
    exact hd
  | pad _ h =>
    obtain ⟨-, hd, -⟩ := uPad_frame h
    exact hd
  | compress _ _ h =>
    obtain ⟨-, hd, -⟩ := uCompress_frame h
    exact hd

theorem Succeeds.phase_eq_of_not_mem (h : Succeeds i s u d)
    (hi : i ∉ [Instr.clr, .sha256, .hmac, .wload, .pad, .compress, .finalize]) : u.phase = s.phase := by
  cases h with
  | nop | kclr | mclr | kpush _ | mpush _ | rdd _ _ | rds _ => rfl
  | clr | sha256 _ _ | hmac _ | wload _ _ | pad _ _ | compress _ _ _ | finalize _ _ _ => simp at hi

/-- `K0`, `INNER` and the operands are left by every stage command and by `SHA256`. -/
theorem Succeeds.hashFrame (h : Succeeds i s u d) (hi : i ∈ [Instr.sha256, .wload, .pad, .compress, .finalize]) :
    HashFrame s u := by
  cases h with
  | sha256 _ h => exact (uHash_frame h).1
  | wload _ h => exact (uInit_frame h).1
  | pad _ h => exact (uPad_frame h).1
  | compress _ _ h => exact (uCompress_frame h).1
  | finalize _ _ h => exact (uFinalize_frame h).1
  | nop | clr | kclr | mclr | kpush _ | mpush _ | hmac _ | rdd _ _ | rds _ => simp at hi

theorem Succeeds.k0_inner_eq (h : Succeeds i s u d) (hi : i ∉ [Instr.clr, .hmac]) :
    u.k0 = s.k0 ∧ u.inner = s.inner := by
  by_cases hc : i ∈ [Instr.sha256, .wload, .pad, .compress, .finalize]
  · exact ⟨(h.hashFrame hc).k0, (h.hashFrame hc).inner⟩
  cases h with
  | nop | kclr | mclr | kpush _ | mpush _ | rdd _ _ | rds _ => exact ⟨rfl, rfl⟩
  | clr | hmac _ => simp at hi
  | sha256 _ _ | wload _ _ | pad _ _ | compress _ _ _ | finalize _ _ _ => simp at hc

/-- No computation writes an operand. -/
theorem Succeeds.macFrame (h : Succeeds i s u d)
    (hi : i ∈ [Instr.sha256, .hmac, .wload, .pad, .compress, .finalize]) : MacFrame s u := by
  by_cases hc : i = .hmac
  · subst hc
    cases h with | hmac h => exact (uHmac_frame h).1
  · exact (h.hashFrame (by simpa [hc] using hi)).mac

theorem Succeeds.key_eq (h : Succeeds i s u d) (hi : ∀ b, i ≠ .kpush b) (hc : i ≠ .clr) :
    u.keybuf = s.keybuf ∧ (i ≠ .kclr → u.keyLen = s.keyLen) := by
  by_cases hm : i ∈ [Instr.sha256, .hmac, .wload, .pad, .compress, .finalize]
  · exact ⟨(h.macFrame hm).keybuf, fun _ => (h.macFrame hm).keyLen⟩
  cases h with
  | nop | mclr | mpush _ | rdd _ _ | rds _ => exact ⟨rfl, fun _ => rfl⟩
  | kclr => exact ⟨rfl, fun hk => absurd rfl hk⟩
  | clr => exact absurd rfl hc
  | kpush _ => exact absurd rfl (hi _)
  | sha256 _ _ | hmac _ | wload _ _ | pad _ _ | compress _ _ _ | finalize _ _ _ => simp at hm

theorem Succeeds.msg_eq (h : Succeeds i s u d) (hi : ∀ b, i ≠ .mpush b) (hc : i ≠ .clr) :
    u.msgbuf = s.msgbuf ∧ (i ≠ .mclr → u.msgLen = s.msgLen) := by
  by_cases hm : i ∈ [Instr.sha256, .hmac, .wload, .pad, .compress, .finalize]
  · exact ⟨(h.macFrame hm).msgbuf, fun _ => (h.macFrame hm).msgLen⟩
  cases h with
  | nop | kclr | kpush _ | rdd _ _ | rds _ => exact ⟨rfl, fun _ => rfl⟩
  | mclr => exact ⟨rfl, fun hk => absurd rfl hk⟩
  | clr => exact absurd rfl hc
  | mpush _ => exact absurd rfl (hi _)
  | sha256 _ _ | hmac _ | wload _ _ | pad _ _ | compress _ _ _ | finalize _ _ _ => simp at hm

end

/-- Settles O35: a failure writes `ERR` alone, a success what its command may write. -/
theorem stateIsWrittenOnlyByItsCommands : Obligations.StateIsWrittenOnlyByItsCommands := by
  intro i s t h
  rcases exec_next h with ⟨e, hf, rfl⟩ | ⟨u, d, hu, rfl⟩
  · obtain ⟨hok, -⟩ := hf.status
    refine ⟨fun _ => rfl, fun _ => ⟨rfl, rfl, rfl⟩, fun _ => rfl, fun _ => ⟨rfl, rfl, rfl⟩, fun _ => rfl,
      fun _ => ⟨rfl, rfl⟩, fun _ _ => ⟨rfl, fun _ => rfl⟩, fun _ _ => ⟨rfl, fun _ => rfl⟩, fun _ => rfl,
      fun r hr hst _ => ?_, rfl, rfl⟩
    obtain rfl := Option.some.inj hr
    exact absurd hst hok
  · obtain ⟨hp, hh, herr⟩ := hu.frame
    exact ⟨hu.h_eq, hu.vwt_eq, hu.blk_eq, hu.work_eq, hu.digest_eq, hu.k0_inner_eq, hu.key_eq, hu.msg_eq,
      hu.phase_eq_of_not_mem, fun _ _ _ => herr, hp, hh⟩

/-- What a command that is no computation and no `CLR`, or that fails, leaves: the hash unit and the digest. -/
theorem exec_keeps_result {i : Instr} {s t : State} (h : exec i s = .next t)
    (hi : i ∉ [Instr.clr, .sha256, .hmac, .wload, .pad, .compress, .finalize] ∨ ∃ r, t.resp = some r ∧ r.st ≠ .ok) :
    t.phase = s.phase ∧ t.h = s.h ∧ t.v = s.v ∧ t.w = s.w ∧ t.work = s.work ∧ t.digest = s.digest := by
  rcases hi with hi | ⟨r, hr, hne⟩
  · obtain ⟨hh, hv, -, hw, hd, -, -, -, hph, -⟩ := stateIsWrittenOnlyByItsCommands i s t h
    simp only [List.mem_cons, List.not_mem_nil, or_false, not_or] at hi
    obtain ⟨hv, hw', -⟩ := hv (by simp [hi])
    obtain ⟨-, hw, -⟩ := hw (by simp [hi])
    exact ⟨hph (by simp [hi]), hh (by simp [hi]), hv, hw', hw, hd (by simp [hi])⟩
  · rw [failedCommandChangesOnlyErr i s t r h hr hne]
    exact ⟨rfl, rfl, rfl, rfl, rfl, rfl⟩

/-- Settles O38: `RDD` answers from `PHASE` and `DIGEST`, which are as before. -/
theorem finishedResultSurvives : Obligations.FinishedResultSurvives := by
  intro i s t h hi
  have hkept : i ∉ [Instr.clr, .sha256, .hmac, .wload, .pad, .compress, .finalize] ∨
      ∃ r, t.resp = some r ∧ r.st ≠ .ok := by
    rcases hi with ⟨b, rfl⟩ | ⟨b, rfl⟩ | rfl | rfl | rfl | ⟨k, rfl⟩ | ⟨a, rfl⟩ | hfail
    iterate 7 exact .inl (by simp)
    exact .inr hfail
  obtain ⟨hph, hh, hv, hw, hwork, hdig⟩ := exec_keeps_result h hkept
  refine ⟨hph, hh, hv, hw, fun a => congrArg (Memory.read · a) hwork, fun k hk hp => ?_⟩
  refine ⟨_, (Succeeds.rdd (hph.trans hp) hk).exec_eq, ?_⟩
  simp only [State.responded, State.byteAt, State.space_digest, hdig]

end Sys2Proof.Machine
end

section
/-! PROOF. `HASHSTEP` and the conversations of a host with the engine (30_encoding.md R70, R71). -/

namespace Sys2Proof.Machine

/-! ## The stage commands by hand -/

theorem runCommands_append (is js : List Instr) (s : State) :
    runCommands (is ++ js) s = andThen (runCommands is s) (runCommands js) := by
  induction is generalizing s with
  | nil => rfl
  | cons i is ih =>
    rw [List.cons_append, runCommands, runCommands, andThen_assoc]
    exact congrArg (andThen (exec i s)) (funext ih)

/-- In a state that has answered success, a command with the same answer leaves just what its computation leaves. -/
theorem Succeeds.exec_eq_of_resp {i : Instr} {s u : State} (h : Succeeds i s u 0) (hr : u.resp = some ⟨.ok, 0⟩) :
    exec i s = .next u := by
  rw [h.exec_eq, State.responded, ← hr]

/-- `COMPRESS` once per block left is the block loop of `U_HASH`, which ends with no block left. -/
theorem runCommands_compress {n : Nat} {s u : State} (hr : s.resp = some ⟨.ok, 0⟩)
    (hp : s.phase = .padded ∨ s.phase = .compressing) (hn : s.blk + n = s.nblk) (h : uCompressAll n s = .next u) :
    runCommands (List.replicate n .compress) s = .next u ∧ u.blk = u.nblk ∧ (n ≠ 0 → u.phase = .compressing) := by
  induction n generalizing s with
  | zero =>
    cases h
    exact ⟨rfl, hn, fun h => absurd rfl h⟩
  | succ n ih =>
    rw [uCompressAll, if_pos (by omega)] at h
    obtain ⟨t, ht, h⟩ := andThen_eq_next h
    obtain ⟨hf, -, -, -, hnt, hbt, hpt⟩ := uCompress_frame ht
    have hrt := hf.resp.trans hr
    obtain ⟨hrun, hblk, hph⟩ := ih hrt (.inr hpt) (by omega) h
    refine ⟨?_, hblk, fun _ => ?_⟩
    · rw [List.replicate_succ, runCommands, (Succeeds.compress hp (by omega) ht).exec_eq_of_resp hrt, andThen_next,
        hrun]
    · cases n with
      | zero =>
        cases h
        exact hpt
      | succ n => exact hph (Nat.succ_ne_zero n)

/-- `U_HASH` does not look at the response. -/
theorem uHash_responded {m : List Byte} {s u : State} (d : Byte) (hl : m.length ≤ seqMax s.params)
    (h : uHash m s = .next u) : uHash m (s.responded d) = .next (u.responded d) := by
  rw [uHash_eq hl rfl rfl] at h
  cases h
  exact uHash_eq hl rfl rfl

/-- Settles O39: after `WLOAD` the response is the success that `SHA256` gives, and the stage commands are the parts of
`U_HASH`. -/
theorem hashstepEqualsSha256 : Obligations.HashstepEqualsSha256 := by
  intro s hm
  have hl := msgBytes_length_le_seqMax hm
  obtain ⟨u, hu, -⟩ := uHash_spec hl
  refine ⟨u.responded 0, (Succeeds.sha256 hm hu).exec_eq, ?_⟩
  obtain ⟨a, ha, h⟩ := andThen_eq_next (uHash_responded 0 hl hu)
  obtain ⟨b, hb, h⟩ := andThen_eq_next h
  obtain ⟨c, hc, h⟩ := andThen_eq_next h
  obtain ⟨hfa, -, -, -, -, hwa, -, -, -, hpa⟩ := uInit_frame ha
  obtain ⟨hfb, -, -, -, -, -, hwb, hnb, hbb, hpb⟩ := uPad_frame hb
  have hra : a.resp = some ⟨.ok, 0⟩ := hfa.resp
  have hrb := hfb.resp.trans hra
  have hn : b.nblk = (s.msgLen + 8) / 64 + 1 := by
    rw [hwa, State.msgBytes_length, padded_length] at hwb
    omega
  have hload : exec .wload s = .next a := by
    rw [uInit_eq (s := s.responded 0) (hl.trans (seqMax_le_workMax _))] at ha
    cases ha
    exact (Succeeds.wload hm (uInit_eq (hl.trans (seqMax_le_workMax _)))).exec_eq
  obtain ⟨hrun, hblk, hph⟩ := runCommands_compress hrb (.inl hpb) (by omega) hc
  have hfin : exec .finalize c = .next (u.responded 0) :=
    (Succeeds.finalize (hph (by omega)) hblk h).exec_eq_of_resp rfl
  rw [hashstep, runCommands_append, runCommands_append, ← hn]
  simp only [runCommands, hload, andThen_next, (Succeeds.pad hpa hb).exec_eq_of_resp hrb, hrun, hfin]

/-! ## Conversations -/

theorem converse_append {cs ds : List CmdWord} {s t u : State} {rs qs : List Response}
    (h : converse cs s = some (rs, t)) (h' : converse ds t = some (qs, u)) :
    converse (cs ++ ds) s = some (rs ++ qs, u) := by
  induction cs generalizing s rs with
  | nil =>
    cases h
    exact h'
  | cons c cs ih =>
    rw [converse] at h
    split at h
    case h_2 => cases h
    case h_1 v hv =>
      split at h
      case h_2 => cases h
      case h_1 r ps w hr hc =>
        cases h
        rw [List.cons_append, converse, hv]
        simp only [hr, ih hc, List.cons_append]

/-- The word of a command is answered as the command is. -/
theorem converse_encode_cons {i : Instr} {is : List Instr} {s t u : State} {r : Response} {rs : List Response}
    (hi : i.wellFormed = true) (h : exec i s = .next t) (hr : t.resp = some r)
    (h' : converse (is.map encode) t = some (rs, u)) : converse ((i :: is).map encode) s = some (r :: rs, u) := by
  rw [List.map_cons, converse, acceptCommand_of_ok (decode_encode hi), h]
  simp only [hr, h']

/-- One push per byte, each answered with success while there is room; `L bs s` says that `bs` are loaded in `s`. -/
theorem converse_pushes {push : Byte → Instr} {L : List Byte → State → Prop} {cap : Nat}
    (hw : ∀ b, (push b).wellFormed = true)
    (hpush : ∀ {bs b s}, L bs s → bs.length < cap →
      ∃ t, exec (push b) s = .next t ∧ t.resp = some ⟨.ok, 0⟩ ∧ L (bs ++ [b]) t)
    {pre bs : List Byte} {s : State} (hL : L pre s) (hcap : pre.length + bs.length ≤ cap) :
    ∃ t, converse ((bs.map push).map encode) s = some (List.replicate bs.length ⟨.ok, 0⟩, t) ∧ L (pre ++ bs) t := by
  induction bs generalizing pre s with
  | nil => exact ⟨s, rfl, by rwa [List.append_nil]⟩
  | cons b bs ih =>
    rw [List.length_cons] at hcap
    obtain ⟨t, ht, hr, hLt⟩ := hpush (b := b) hL (by omega)
    obtain ⟨u, hu, hLu⟩ := ih hLt (by simp only [List.length_append, List.length_singleton]; omega)
    exact ⟨u, converse_encode_cons (hw b) ht hr hu, by rwa [List.append_assoc] at hLu⟩

/-- `KLOAD k` from any state (R70). -/
theorem converse_kload {k : List Byte} {s : State} (hk : k.length ≤ s.params.keyMax.val) :
    ∃ t, converse ((kload k).map encode) s = some (List.replicate (k.length + 1) ⟨.ok, 0⟩, t) ∧
      t.params = s.params ∧ t.keyBytes = k := by
  obtain ⟨t, ht, hL⟩ := converse_pushes (push := .kpush) (cap := s.params.keyMax.val) (pre := []) (bs := k)
    (s := { s with keyLen := 0 }.responded 0) (L := fun bs t => t.params = s.params ∧ t.keyBytes = bs)
    (fun _ => rfl) (fun {bs b v} ⟨hp, hb⟩ hlt => by
      have hle : v.keyLen + 1 ≤ v.params.keyMax.val := by rwa [hp, ← State.keyBytes_length, hb]
      refine ⟨_, (Succeeds.kpush hle).exec_eq, rfl, hp, ?_⟩
      exact (Memory.bytes_write_end v.keybuf v.keyLen [b]).trans (congrArg (· ++ [b]) hb))
    ⟨rfl, rfl⟩ (by simpa using hk)
  exact ⟨t, converse_encode_cons rfl Succeeds.kclr.exec_eq rfl ht, hL⟩

/-- `MLOAD m` from any state; the key stays (R70). -/
theorem converse_mload {m : List Byte} {s : State} (hm : m.length ≤ s.params.msgMax.val) :
    ∃ t, converse ((mload m).map encode) s = some (List.replicate (m.length + 1) ⟨.ok, 0⟩, t) ∧
      t.params = s.params ∧ t.keyBytes = s.keyBytes ∧ t.msgBytes = m := by
  obtain ⟨t, ht, hL⟩ := converse_pushes (push := .mpush) (cap := s.params.msgMax.val) (pre := []) (bs := m)
    (s := { s with msgLen := 0 }.responded 0)
    (L := fun bs t => t.params = s.params ∧ t.keyBytes = s.keyBytes ∧ t.msgBytes = bs)
    (fun _ => rfl) (fun {bs b v} ⟨hp, hk, hb⟩ hlt => by
      have hle : v.msgLen + 1 ≤ v.params.msgMax.val := by rwa [hp, ← State.msgBytes_length, hb]
      refine ⟨_, (Succeeds.mpush hle).exec_eq, rfl, hp, hk, ?_⟩
      exact (Memory.bytes_write_end v.msgbuf v.msgLen [b]).trans (congrArg (· ++ [b]) hb))
    ⟨rfl, rfl, rfl⟩ (by simpa using hm)
  exact ⟨t, converse_encode_cons rfl Succeeds.mclr.exec_eq rfl ht, hL⟩

/-- Reads of a finished digest change the response alone. -/
theorem converse_rdds {ks : List Nat} {s : State} (hp : s.phase = .finalized) (hk : ∀ k ∈ ks, k < 32) :
    ∃ t, converse ((ks.map .rdd).map encode) s = some (ks.map fun k => ⟨.ok, s.byteAt .digest k⟩, t) := by
  induction ks generalizing s with
  | nil => exact ⟨s, rfl⟩
  | cons k ks ih =>
    have hlt := hk k (by simp)
    obtain ⟨t, ht⟩ := ih (s := s.responded (s.byteAt .digest k)) hp fun j hj => hk j (by simp [hj])
    exact ⟨t, converse_encode_cons (decide_eq_true (by omega)) (Succeeds.rdd hp hlt).exec_eq rfl ht⟩

/-- `RDDIGEST` answers the digest (R70). -/
theorem converse_rddigest {s : State} (hp : s.phase = .finalized) :
    ∃ t, converse (rddigest.map encode) s = some (s.digestBytes.map fun b => ⟨.ok, b⟩, t) := by
  obtain ⟨t, ht⟩ := converse_rdds hp (ks := List.range 32) (by simp)
  have hbytes : s.digestBytes.map (fun b => (⟨.ok, b⟩ : Response)) =
      (List.range 32).map fun k => ⟨.ok, s.byteAt .digest k⟩ := by
    simp only [State.digestBytes, State.content, Memory.bytes, State.byteAt, List.map_map, Function.comp_def,
      Nat.zero_add]
  exact ⟨t, hbytes ▸ ht⟩

/-- A command that finishes a result, and `RDDIGEST` after it. -/
theorem converse_compute_rddigest {i : Instr} {s t : State} (hi : i.wellFormed = true) (h : exec i s = .next t)
    (hr : t.resp = some ⟨.ok, 0⟩) (hp : t.phase = .finalized) :
    ∃ u, converse ((i :: rddigest).map encode) s = some (⟨.ok, 0⟩ :: t.digestBytes.map fun b => ⟨.ok, b⟩, u) := by
  obtain ⟨u, hu⟩ := converse_rddigest hp
  exact ⟨u, converse_encode_cons hi h hr hu⟩

/-- Settles O40: `MLOAD` loads the message, `SHA256` leaves its digest, `RDDIGEST` reads it. -/
theorem sha256ConversationReturnsTheDigest : Obligations.Sha256ConversationReturnsTheDigest := by
  intro s m _ hm
  obtain ⟨a, ha, hpa, -, hma⟩ := converse_mload hm
  have hlen : a.msgLen ≤ a.params.msgMax.val := by rwa [← State.msgBytes_length, hma, hpa]
  obtain ⟨-, hcmd⟩ := sha256CommandHashesTheMessage
  obtain ⟨b, hb, hbe, hsha, -⟩ := hcmd a hlen
  obtain ⟨t, ht⟩ := converse_compute_rddigest rfl hb (by rw [hbe]) (by rw [hbe])
  refine ⟨t, b.digestBytes, hma ▸ hsha, ?_⟩
  rw [sha256Commands, List.append_assoc, List.map_append, List.singleton_append, converse_append ha ht]
  simp [List.replicate_add]

/-- Settles O41: `KLOAD` and `MLOAD` load the operands, `HMAC` leaves the MAC, `RDDIGEST` reads it. -/
theorem hmacConversationReturnsTheMac : Obligations.HmacConversationReturnsTheMac := by
  intro s k m _ hk hm
  obtain ⟨a, ha, hpa, hka⟩ := converse_kload hk
  obtain ⟨b, hb, hpb, hkb, hmb⟩ := converse_mload (s := a) (hpa ▸ hm)
  have hkeyLen : b.keyLen ≤ b.params.keyMax.val := by rwa [← State.keyBytes_length, hkb, hka, hpb, hpa]
  have hmsgLen : b.msgLen ≤ b.params.msgMax.val := by rwa [← State.msgBytes_length, hmb, hpb, hpa]
  obtain ⟨-, hcmd⟩ := hmacCommandComputesTheMac
  obtain ⟨c, -, -, hc, hce, hmac, -⟩ := hcmd b hkeyLen hmsgLen
  rw [hkb, hka, hmb] at hmac
  obtain ⟨t, ht⟩ := converse_compute_rddigest rfl hc (by rw [hce]) (by rw [hce])
  refine ⟨t, c.digestBytes, hmac, ?_⟩
  rw [hmacCommands, List.append_assoc, List.append_assoc, List.map_append, List.map_append, List.singleton_append,
    converse_append ha (converse_append hb ht)]
  have hcount : k.length + m.length + 3 = (k.length + 1) + (m.length + 1) + 1 := by omega
  simp [hcount, List.replicate_add]

end Sys2Proof.Machine
end

section
/-! PROOF. The word functions bit by bit and the tables (40_bytecodec_wordops.md R84 to R89, R94, R95). -/

namespace Sys2Proof.Machine

theorem ch_getLsbD (x y z : Word) {i : Nat} (hi : i < 32) :
    (ch x y z).getLsbD i = if x.getLsbD i then y.getLsbD i else z.getLsbD i := by
  simp only [ch, BitVec.getLsbD_xor, BitVec.getLsbD_and, BitVec.getLsbD_not, hi, decide_true, Bool.true_and]
  cases x.getLsbD i <;> simp

theorem maj_getLsbD (x y z : Word) (i : Nat) :
    (maj x y z).getLsbD i = true ↔ 2 ≤ (x.getLsbD i).toNat + (y.getLsbD i).toNat + (z.getLsbD i).toNat := by
  simp only [maj, BitVec.getLsbD_xor, BitVec.getLsbD_and]
  generalize x.getLsbD i = a, y.getLsbD i = b, z.getLsbD i = c
  revert a b c
  decide

/-- Settles O47: each function is bitwise, so the three bits at one position decide. -/
theorem chSelectsAndMajCounts : Obligations.ChSelectsAndMajCounts := fun x y z i hi =>
  ⟨ch_getLsbD x y z hi, maj_getLsbD x y z i⟩

/-- An amount below 32 is taken as it is, and zeros enter. -/
theorem shr_getLsbD (x : Word) {n : Nat} (hn : n < 32) (i : Nat) :
    (shr x n).getLsbD i = if i + n < 32 then x.getLsbD (i + n) else false := by
  rw [shr, Nat.mod_eq_of_lt hn, BitVec.getLsbD_ushiftRight, Nat.add_comm n i]
  split
  · rfl
  · exact BitVec.getLsbD_of_ge x _ (by omega)

/-- Settles O56: the bits of the rotations and of the shift. -/
theorem sigmaFunctionsBitByBit : Obligations.SigmaFunctionsBitByBit := by
  intro x i hi
  have hrotr (n : Nat) := rotr_getLsbD x n hi
  have hshr {n : Nat} (hn : n < 32) := shr_getLsbD x hn i
  simp only [bsig0, bsig1, ssig0, ssig1, BitVec.getLsbD_xor, hrotr, hshr (n := 3) (by decide),
    hshr (n := 10) (by decide), and_self]

/-- Settles O57: an evaluation of the tables; powers bound the roots from below and from above. -/
theorem constantTablesAreTheRootsOfPrimes : Obligations.ConstantTablesAreTheRootsOfPrimes := by
  unfold Obligations.ConstantTablesAreTheRootsOfPrimes
  refine ⟨?_, ?_, ?_⟩
  · decide +kernel
  · decide +kernel
  · decide +kernel

end Sys2Proof.Machine
end

section
/-! PROOF. Bytes and words (40_bytecodec_wordops.md R90, R91). -/

namespace Sys2Proof.Machine

/-- The four bytes of a word make the word again. -/
theorem wordOf_be32 (w : Word) :
    wordOf (w.extractLsb' 24 8) (w.extractLsb' 16 8) (w.extractLsb' 8 8) (w.extractLsb' 0 8) = w := by
  have hjoin := @BitVec.extractLsb'_append_extractLsb'_eq_extractLsb' 32
  rw [wordOf, hjoin (start₂ := 24) (start₁ := 16) rfl, hjoin (start₂ := 16) (start₁ := 8) rfl,
    hjoin (start₂ := 8) (start₁ := 0) rfl]
  exact BitVec.extractLsb'_eq_self

theorem be32_wordOf (b0 b1 b2 b3 : Byte) : be32 (wordOf b0 b1 b2 b3) = [b0, b1, b2, b3] := by
  simp only [be32, wordOf, List.cons.injEq, and_true]
  refine ⟨?_, ?_, ?_, ?_⟩
  all_goals
    ext i hi
    simp only [BitVec.getElem_extractLsb', BitVec.getLsbD_append]
    grind

theorem wordsToBytes_cons (w : Word) (ws : List Word) : wordsToBytes (w :: ws) = be32 w ++ wordsToBytes ws := rfl

theorem bytesToWords_wordsToBytes (ws : List Word) : bytesToWords (wordsToBytes ws) = some ws := by
  induction ws with
  | nil => rfl
  | cons w ws ih =>
    rw [wordsToBytes_cons, be32]
    simp only [List.cons_append, List.nil_append, bytesToWords, ih, Option.map_some, wordOf_be32]

theorem bytesToWords_of_partial : ∀ {s : List Byte}, s.length % 4 ≠ 0 → bytesToWords s = none
  | [], h => absurd rfl h
  | [_], _ | [_, _], _ | [_, _, _], _ => rfl
  | _ :: _ :: _ :: _ :: rest, h => by
    rw [bytesToWords, bytesToWords_of_partial (s := rest) (by simpa [Nat.add_assoc] using h), Option.map_none]

/-- Whole groups are the bytes of their words, with nothing to fill. -/
theorem bytesToWords_of_whole :
    ∀ {s : List Byte}, s.length % 4 = 0 →
      ∃ ws, bytesToWords s = some ws ∧ wordsToBytes ws = s ∧ ∀ g, bytesToWordsWith g s = ws
  | [], _ => ⟨[], rfl, rfl, fun _ => rfl⟩
  | b0 :: b1 :: b2 :: b3 :: rest, h => by
    obtain ⟨ws, hws, hb, hg⟩ := bytesToWords_of_whole (s := rest) (by simpa [Nat.add_assoc] using h)
    refine ⟨wordOf b0 b1 b2 b3 :: ws, ?_, ?_, fun g => ?_⟩
    · rw [bytesToWords, hws, Option.map_some]
    · rw [wordsToBytes_cons, be32_wordOf, hb]
      rfl
    · rw [bytesToWordsWith, hg g]

/-- Settles O48: four bytes and one word at a time. -/
theorem bytesAndWordsAreInverse : Obligations.BytesAndWordsAreInverse :=
  ⟨fun ws => ⟨wordsToBytes_length ws, bytesToWords_wordsToBytes ws⟩,
    fun _ => ⟨bytesToWords_of_partial, bytesToWords_of_whole⟩⟩

end Sys2Proof.Machine
end

section
/-! PROOF. Lengths of digests and MACs, and keys that share a MAC (42_hmac.md R140, R143; 90_conflicts.md C7). -/

namespace Sys2Proof.Machine

/-- Settles O51: `LIMIT` decides for `sha256`; both passes of `hmac` stay within it. -/
theorem digestAndMacAreThirtyTwoBytes : Obligations.DigestAndMacAreThirtyTwoBytes := by
  refine ⟨fun m => ⟨sha256_exists, sha256_of_gt⟩, fun key msg hkey hmsg => ?_⟩
  obtain ⟨-, -, -, hpasses⟩ := hmacIsTheTwoPassConstruction
  obtain ⟨-, -, mac, -, -, -, -, -, hmac, hlen⟩ := hpasses key msg hkey hmsg
  exact ⟨mac, hmac, hlen⟩

/-- The MAC depends on the prepared key alone. -/
theorem hmac_eq_of_prepareKey_eq {key key' : List Byte} (h : prepareKey key = prepareKey key') (msg : List Byte) :
    hmac key msg = hmac key' msg := by
  rw [hmac, h, hmac]

theorem prepareKey_append_zeros {key : List Byte} {n : Nat} (h : key.length + n ≤ 64) :
    prepareKey (key ++ List.replicate n 0) = prepareKey key := by
  have hlen : (key ++ List.replicate n (0 : Byte)).length = key.length + n := by simp
  have hfill : n + (64 - (key.length + n)) = 64 - key.length := by omega
  rw [prepareKey_of_le (hlen.trans_le h), prepareKey_of_le (by omega), hlen, List.append_assoc,
    List.replicate_append_replicate, hfill]

/-- A digest has 32 bytes, so as a key it is filled up with 32 zero bytes. -/
theorem prepareKey_sha256 {key d : List Byte} (h : 64 < key.length) (hd : sha256 key = some d) :
    prepareKey d = prepareKey key := by
  have hlen := sha256_length hd
  rw [prepareKey_of_gt h, hd, Option.map_some, prepareKey_of_le (by omega), hlen]

/-- Settles O52: the two keys of each class have one prepared key. -/
theorem keysWithOnePreparedKeyShareTheMac : Obligations.KeysWithOnePreparedKeyShareTheMac :=
  ⟨fun _ msg _ h => hmac_eq_of_prepareKey_eq (prepareKey_append_zeros h) msg,
    fun _ msg _ h hd => hmac_eq_of_prepareKey_eq (prepareKey_sha256 h hd) msg⟩

end Sys2Proof.Machine
end

section
/-! PROOF. The hex round trip (44_host_codec.md R192, R193) and the assembler's reading of its own text (30_encoding.md
R69). -/

namespace Sys2Proof.Machine

/-! ## The hex round trip -/

theorem hexChar_mem (n : BitVec 4) : hexChar n ∈ hexAlphabet := by
  revert n
  decide

theorem hexValue_hexChar (upperOk : Bool) (n : BitVec 4) : hexValue upperOk (hexChar n) = some n := by
  have hlt : n.toNat < hexAlphabet.length := n.isLt
  have hchar : hexChar n = hexAlphabet.getD n.toNat ' ' := by
    rw [hexChar, List.getD_eq_getElem _ _ hlt, List.getD_eq_getElem _ _ hlt]
  rw [hchar, hexValue_hexAlphabet upperOk hlt, BitVec.ofNat_toNat, BitVec.setWidth_eq]

/-- Only one character of the alphabet has a given value. -/
theorem hexChar_of_hexValue {upperOk : Bool} {c : Char} {x : BitVec 4} (hc : c ∈ hexAlphabet)
    (hx : hexValue upperOk c = some x) : hexChar x = c := by
  obtain ⟨i, hi, rfl⟩ := List.mem_iff_getElem.1 hc
  have hlt : i < 16 := hi
  rw [← List.getD_eq_getElem _ ' ' hi, hexValue_hexAlphabet upperOk hlt] at hx
  obtain rfl := Option.some.inj hx
  rw [hexChar, BitVec.toNat_ofNat, Nat.mod_eq_of_lt hlt, List.getD_eq_getElem]

theorem bytesToHex_cons (b : Byte) (bs : List Byte) :
    bytesToHex (b :: bs) = hexChar (b.extractLsb' 4 4) :: hexChar (b.extractLsb' 0 4) :: bytesToHex bs := rfl

/-- The two nibbles of a byte make the byte again. -/
theorem nibbles_append (b : Byte) : (b.extractLsb' 4 4 ++ b.extractLsb' 0 4 : Byte) = b :=
  (BitVec.extractLsb'_append_extractLsb'_eq_extractLsb' rfl).trans BitVec.extractLsb'_eq_self

theorem hexToBytes_bytesToHex (upperOk : Bool) (b : List Byte) : hexToBytes upperOk (bytesToHex b) = .ok b := by
  induction b with
  | nil => rfl
  | cons x bs ih => simp only [bytesToHex_cons, hexToBytes, hexValue_hexChar, ih, nibbles_append]

theorem mem_hexAlphabet_of_mem_bytesToHex {b : List Byte} {c : Char} (h : c ∈ bytesToHex b) : c ∈ hexAlphabet := by
  obtain ⟨x, -, hc⟩ := List.mem_flatMap.1 h
  rcases List.mem_pair.1 hc with rfl | rfl <;> exact hexChar_mem _

theorem bytesToHex_hexToBytes {upperOk : Bool} {t : Text} {b : List Byte} (h : hexToBytes upperOk t = .ok b)
    (ht : ∀ c ∈ t, c ∈ hexAlphabet) : bytesToHex b = t := by
  induction t using List.twoStepInduction generalizing b with
  | nil => cases h; rfl
  | singleton c => cases h
  | cons_cons hi lo rest ih _ =>
    obtain ⟨x, y, bs, hx, hy, hbs, rfl⟩ := hexToBytes_ok_cons_cons h
    simp only [List.forall_mem_cons] at ht
    obtain ⟨hhi, hlo, hrest⟩ := ht
    rw [bytesToHex_cons, BitVec.extractLsb'_append_eq_left, BitVec.extractLsb'_append_eq_right,
      hexChar_of_hexValue hhi hx, hexChar_of_hexValue hlo hy, ih hbs hrest]

/-- Settles O53: `bytesToHex` writes lower-case text only, where each value has one character. -/
theorem hexRoundTrip : Obligations.HexRoundTrip := fun upperOk =>
  ⟨hexToBytes_bytesToHex upperOk, fun _ _ h =>
    ⟨fun ht _ hc => mem_hexAlphabet_of_mem_bytesToHex (ht ▸ hc), bytesToHex_hexToBytes h⟩⟩

/-! ## One line of the assembler -/

/-- A character of a word: neither a separator nor the start of a comment. -/
abbrev IsWordChar (c : Char) : Prop := c ≠ ' ' ∧ c ≠ '\t' ∧ c ≠ ';'

theorem isWordChar_of_mem_hexAlphabet {c : Char} (h : c ∈ hexAlphabet) : IsWordChar c := by
  refine ⟨?_, ?_, ?_⟩ <;> (rintro rfl; revert h; decide)

theorem splitWords_append {w : Text} (h : ∀ c ∈ w, IsWordChar c) (cur rest : Text) :
    splitWords cur (w ++ rest) = splitWords (cur ++ w) rest := by
  induction w generalizing cur with
  | nil => rw [List.nil_append, List.append_nil]
  | cons c w ih =>
    simp only [List.forall_mem_cons] at h
    obtain ⟨⟨hspace, htab, -⟩, hw⟩ := h
    rw [List.cons_append, splitWords, if_neg (not_or.2 ⟨hspace, htab⟩), ih hw, List.append_assoc,
      List.singleton_append]

/-- A line of two words is a mnemonic and its argument. -/
theorem assembleLine_two_words {m n : Text} (hm : ∀ c ∈ m, IsWordChar c) (hn : ∀ c ∈ n, IsWordChar c) (hm' : m ≠ [])
    (hn' : n ≠ []) :
    assembleLine (m ++ ' ' :: n) = (parseNumber n).bind fun k => (argCommand m k).map some := by
  have hkeep : (m ++ ' ' :: n).takeWhile (fun c => decide (c ≠ ';')) = m ++ ' ' :: n := by
    refine List.takeWhile_eq_self_iff.2 fun c hc => decide_eq_true ?_
    rcases List.mem_append.1 hc with hc | hc
    · exact (hm c hc).2.2
    · rcases List.mem_cons.1 hc with rfl | hc
      · decide
      · exact (hn c hc).2.2
  have hsplit : splitWords [] (m ++ ' ' :: n) = [m, n] := by
    have hlast := splitWords_append hn [] []
    rw [List.append_nil, List.nil_append, splitWords, if_neg hn'] at hlast
    rw [splitWords_append hm, List.nil_append, splitWords, if_pos (.inl rfl), if_neg hm', hlast]
  rw [assembleLine, hkeep, hsplit]

theorem parseNumber_hex (b : Byte) : parseNumber ('0' :: 'x' :: bytesToHex [b]) = some b.toNat := by
  have hvalue : (0 * 16 + (b.extractLsb' 4 4).toNat) * 16 + (b.extractLsb' 0 4).toNat = b.toNat := by
    rw [← congrArg BitVec.toNat (nibbles_append b), nibbles_toNat]
    omega
  rw [bytesToHex_cons, parseNumber]
  simp only [digitsFrom, hexValue_hexChar, Option.map_some, hvalue]
  exact if_pos b.isLt

theorem isWordChar_of_mem_hexNumber {b : Byte} {c : Char} (h : c ∈ '0' :: 'x' :: bytesToHex [b]) : IsWordChar c := by
  rcases List.mem_cons.1 h with rfl | h
  · decide
  rcases List.mem_cons.1 h with rfl | h
  · decide
  · exact isWordChar_of_mem_hexAlphabet (mem_hexAlphabet_of_mem_bytesToHex h)

theorem isWordChar_of_mem_mnemonicText (i : Instr) : ∀ c ∈ mnemonicText i, IsWordChar c := by
  cases i <;> simp [mnemonicText, IsWordChar]

/-- The text of a command with an argument is read as the command its mnemonic names, with that argument. -/
theorem assembleLine_asmText {i : Instr} {b : Byte} (h : operand i = some b) :
    assembleLine (asmText i) = (argCommand (mnemonicText i) b.toNat).map some := by
  have htext : asmText i = mnemonicText i ++ ' ' :: ('0' :: 'x' :: bytesToHex [b]) := by
    simp only [asmText, h, List.append_assoc, List.cons_append, List.nil_append]
  have hne : mnemonicText i ≠ [] := by cases i <;> exact List.cons_ne_nil _ _
  rw [htext, assembleLine_two_words (isWordChar_of_mem_mnemonicText i) (fun _ => isWordChar_of_mem_hexNumber) hne
    (List.cons_ne_nil _ _), parseNumber_hex, Option.bind_some]

/-- The operand of a well-formed command is the byte its text shows. -/
theorem argCommand_mnemonicText {i : Instr} {b : Byte} (hi : i.wellFormed = true) (h : operand i = some b) :
    argCommand (mnemonicText i) b.toNat = some i := by
  cases i with
  | kpush _ | mpush _ =>
    cases h
    simp [argCommand, mnemonicText]
  | rdd k | rds k =>
    cases h
    have hk : k < 256 := of_decide_eq_true hi
    simp [argCommand, mnemonicText, Nat.mod_eq_of_lt hk]
  | nop | clr | kclr | mclr | sha256 | hmac | wload | pad | compress | finalize => cases h

/-- Settles O55: a line with an argument has two words, and each of the other ten lines is evaluated. -/
theorem assemblerReadsItsOwnText : Obligations.AssemblerReadsItsOwnText := by
  intro i hi
  cases i with
  | kpush _ | mpush _ | rdd _ | rds _ => rw [assembleLine_asmText rfl, argCommand_mnemonicText hi rfl, Option.map_some]
  | nop | clr | kclr | mclr | sha256 | hmac | wload | pad | compress | finalize => decide

end Sys2Proof.Machine
end

section
/-! PROOF. The C entry points and the drivers (44_host_codec.md R201). -/

namespace Sys2Proof.Machine

/-- A null pointer that came with a positive length is refused, whichever input it is. -/
theorem cArguments_of_null {c : CCall} {n : Nat} (hn : 0 < n)
    (hc : ∃ o, c = .sha256 (.null n) o ∨ ∃ x, c = .hmacSha256 (.null n) x o ∨ c = .hmacSha256 x (.null n) o) :
    cArguments c = .error .nullInput := by
  obtain ⟨n, rfl⟩ := Nat.exists_eq_add_one.2 hn
  obtain ⟨o, rfl | ⟨x, rfl | rfl⟩⟩ := hc
  · rfl
  · rfl
  · rcases cArgument_cases (.hmacSha256 x (.null (n + 1)) o) x with ⟨b, hb⟩ | ⟨-, he⟩
    · rw [cArguments, hb]
      rfl
    · rw [cArguments, he]
      rfl

theorem cEntry_sha256_bytes (m : List Byte) :
    cEntry (.sha256 (.bytes m) false) = cReturn (.sha256 (.bytes m) false) (orUnsupported (sha256 m)) := rfl

theorem cEntry_hmac_bytes (k m : List Byte) :
    cEntry (.hmacSha256 (.bytes k) (.bytes m) false) =
      cReturn (.hmacSha256 (.bytes k) (.bytes m) false) (orUnsupported (hmac k m)) := rfl

theorem cEntry_sha256_of_some {m d : List Byte} (h : sha256 m = some d) :
    cEntry (.sha256 (.bytes m) false) = ⟨0, some d⟩ := by
  rw [cEntry_sha256_bytes, h]
  rfl

theorem cEntry_hmac_of_some {k m d : List Byte} (h : hmac k m = some d) :
    cEntry (.hmacSha256 (.bytes k) (.bytes m) false) = ⟨0, some d⟩ := by
  rw [cEntry_hmac_bytes, h]
  rfl

/-- What a driver drops are the answers before the digest. -/
theorem map_data_drop (n : Nat) (d : List Byte) :
    ((List.replicate n (⟨.ok, 0⟩ : Response) ++ d.map fun b => (⟨.ok, b⟩ : Response)).drop n).map Response.data =
      d := by
  rw [List.drop_append_of_le_length (by simp), List.drop_eq_nil_of_le (by simp), List.nil_append, List.map_map]
  exact List.map_id d

theorem driverSha256_eq {s : State} {m : List Byte} (hs : s.Inv) (hm : m.length ≤ s.params.msgMax.val) :
    ∃ t d, sha256 m = some d ∧ driverSha256 m s = some (.ok d, t) := by
  obtain ⟨t, d, hd, hc⟩ := sha256ConversationReturnsTheDigest s m hs hm
  refine ⟨t, d, hd, ?_⟩
  rw [driverSha256, if_pos hm, hc, Option.map_some, map_data_drop]

theorem driverHmac_eq {s : State} {k m : List Byte} (hs : s.Inv) (hk : k.length ≤ s.params.keyMax.val)
    (hm : m.length ≤ s.params.msgMax.val) : ∃ t d, hmac k m = some d ∧ driverHmac k m s = some (.ok d, t) := by
  obtain ⟨t, d, hd, hc⟩ := hmacConversationReturnsTheMac s k m hs hk hm
  refine ⟨t, d, hd, ?_⟩
  rw [driverHmac, if_pos ⟨hk, hm⟩, hc, Option.map_some, map_data_drop]

/-- Settles O60: a null input fails in the arguments; a driver answers what its conversation returns. -/
theorem cEntryPointsReturnZeroOrNegative : Obligations.CEntryPointsReturnZeroOrNegative := by
  refine ⟨fun c n hn hc => ?_, fun m hm => ?_, fun k m hk hm => ?_, fun s m hs hm => ?_, fun s k m hs hk hm => ?_,
    fun e he => ?_⟩
  · have harg := cArguments_of_null hn hc
    rw [cEntry_of_error harg]
    exact ⟨cReturn_nullInput_neg c, fun s => cDriver_of_error s harg⟩
  · obtain ⟨d, hd, -⟩ := sha256_exists hm
    exact ⟨d, hd, cEntry_sha256_of_some hd⟩
  · obtain ⟨-, hmac⟩ := digestAndMacAreThirtyTwoBytes
    obtain ⟨d, hd, -⟩ := hmac k m hk hm
    exact ⟨d, hd, cEntry_hmac_of_some hd⟩
  · obtain ⟨t, d, hd, hdrv⟩ := driverSha256_eq hs hm
    exact ⟨t, by rw [cEntry_sha256_of_some hd]; exact congrArg (Option.map _) hdrv⟩
  · obtain ⟨t, d, hd, hdrv⟩ := driverHmac_eq hs hk hm
    exact ⟨t, by rw [cEntry_hmac_of_some hd]; exact congrArg (Option.map _) hdrv⟩
  · cases e with
    | ok => exact absurd rfl he
    | eIllegal | eSeq | eArg | eSize | eLen => decide

end Sys2Proof.Machine
end

section
/-! PROOF. The reads right after reset (70_reset_and_hazards.md R240, 95_test_vectors.md vector RS). -/

namespace Sys2Proof.Machine

theorem wordsToBytes_replicate_zero (n : Nat) :
    wordsToBytes (List.replicate n 0) = List.replicate (4 * n) 0 := by
  induction n with
  | zero => rfl
  | succ n ih =>
    rw [List.replicate_succ, wordsToBytes_cons, ih, Nat.mul_succ, Nat.add_comm, List.replicate_add]
    rfl

theorem window_resetOf_eq_zero (p : Params) {a : Nat} (h : a ≤ 0x01 ∨ (0x04 ≤ a ∧ a ≤ 0x18) ∨ (0x40 ≤ a ∧ a ≤ 0x5F)) :
    window (State.resetOf p) a = some 0 := by
  have hc : wordsToBytes (counterWords (State.resetOf p)) = List.replicate 20 0 := wordsToBytes_replicate_zero 5
  have hv : wordsToBytes (State.resetOf p).v.toVector.toList = List.replicate 32 0 := wordsToBytes_replicate_zero 8
  have hs : statusByte (State.resetOf p) = 0 :=
    (by decide : 0#5 ++ BitVec.ofBool false ++ Phase.code .init = (0 : Byte))
  unfold window
  rw [hc, hv, hs]
  split_ifs with h0 h1 h2 h3 h4 h5
  · rfl
  · rfl
  · rw [List.getElem?_replicate_of_lt (by omega)]
  · rfl
  · omega
  · rw [List.getElem?_replicate_of_lt (by omega)]
  · omega

/-- The bytes of the initial hash value (R242). -/
theorem wordsToBytes_IV :
    wordsToBytes IV.toList =
      [0x6a, 0x09, 0xe6, 0x67, 0xbb, 0x67, 0xae, 0x85, 0x3c, 0x6e, 0xf3, 0x72, 0xa5, 0x4f, 0xf5, 0x3a,
        0x51, 0x0e, 0x52, 0x7f, 0x9b, 0x05, 0x68, 0x8c, 0x1f, 0x83, 0xd9, 0xab, 0x5b, 0xe0, 0xcd, 0x19] := by
  decide

theorem window_resetOf_hash (p : Params) {i : Nat} (h : i < 32) :
    window (State.resetOf p) (0x20 + i) = some ((wordsToBytes IV.toList).getD i 0) := by
  unfold window
  iterate 4 rw [if_neg (by omega)]
  rw [if_pos (by omega), Nat.add_sub_cancel_left, List.getD_eq_getElem _ _ (by simpa using h)]
  exact List.getElem?_eq_getElem _

/-- Settles O10: the window region by region; the phase is `INIT`, where no digest is readable. -/
theorem windowAfterReset : Obligations.WindowAfterReset := by
  refine fun p => ⟨fun a ha => (Succeeds.rds (window_resetOf_eq_zero p ha)).exec_eq, fun i hi => ?_,
    fun i => (Fails.rddPhase (s := State.resetOf p) nofun).exec_eq⟩
  rw [(Succeeds.rds (window_resetOf_hash p hi)).exec_eq, wordsToBytes_IV]
  rfl

end Sys2Proof.Machine
end
